-- ==== Sys2Proof/Word.lean ====
section
/-! DEFINITION. The word types of BME280-CC (spec/00_scope.md R8, R9, R11): what the spec treats as bits. -/

namespace Sys2Proof

/-- A u8: a byte of the sensor register image (R45), and a read-port index (R22). -/
abbrev Byte := BitVec 8

/-- A 32-bit pattern: an s32 or u32 register, the s32 datapath, a read-port word (R8, R9). -/
abbrev Word32 := BitVec 32

/-- A 64-bit pattern: a command word (R63), the s64 datapath of COMP_P (R90). -/
abbrev Word64 := BitVec 64

end Sys2Proof
end

