-- ==== Sys2Proof/Syntax.lean ====
section
/-! DEFINITION. The commands (spec/30_encoding.md R65: one constructor per row of spec/opcode_table.json) and the source
lines of the assembler (R69, R71, R72). -/

namespace Sys2Proof

/-- The six commands with the operand R64 gives each. The operand types carry the widths, so every value of this type is a
command the block has: a code wider than its field cannot be written (R155). -/
inductive Instr where
  /-- DECODE_CAL, operand NONE (R80). -/
  | decodeCal
  /-- COMP_T, operand ADC20 (R93). -/
  | compT (adc : BitVec 20)
  /-- COMP_P, operand ADC20 (R100). -/
  | compP (adc : BitVec 20)
  /-- COMP_H, operand ADC16 (R110). -/
  | compH (adc : BitVec 16)
  /-- SET_TFINE, operand TF32: the 32-bit pattern of an s32 (R118). -/
  | setTfine (tf : BitVec 32)
  /-- COMP_RAW, operand NONE (R121). -/
  | compRaw
  deriving DecidableEq, Repr

/-- The mnemonic of R65's opcode map. -/
def Instr.mnemonic : Instr → String
  | .decodeCal => "DECODE_CAL"
  | .compT _ => "COMP_T"
  | .compP _ => "COMP_P"
  | .compH _ => "COMP_H"
  | .setTfine _ => "SET_TFINE"
  | .compRaw => "COMP_RAW"

/-- An operand as a source line writes it (R69): decimal with its sign, or hexadecimal with the `0x` in front. -/
inductive Literal where
  | dec (negative : Bool) (magnitude : Nat)
  | hex (value : Nat)
  deriving DecidableEq, Repr

/-- One source line of the assembler (R69), the two pseudo-instructions included (R71, R72). The operands are as written;
`SourceLine.wellFormed` says which of them have an encoding. -/
inductive SourceLine where
  | decodeCal
  | compT (adc : Literal)
  | compP (adc : Literal)
  | compH (adc : Literal)
  | setTfine (tf : Literal)
  | compRaw
  /-- MEASURE (R71). -/
  | measure (adcT adcP adcH : Literal)
  /-- COMP_PH (R72). -/
  | compPh (tf adcP adcH : Literal)
  deriving DecidableEq, Repr

end Sys2Proof
end

