-- ==== Sys2Proof/WellFormed.lean ====
section
/-! DEFINITION. Which source lines have an encoding: the operand ranges of spec/30_encoding.md R69. A value of `Instr`
itself needs no check, because its operand types carry the widths of R64. -/

namespace Sys2Proof

/-- The check for `<adc20>` and `<adc16>` (R69): no minus sign, and below the field's bound (2^20 or 2^16). -/
def Literal.fitsUnsigned (bound : Nat) : Literal → Bool
  | .dec negative magnitude => !negative && decide (magnitude < bound)
  | .hex value => decide (value < bound)

/-- The check for `<s32>` (R69): a decimal in [-2147483648, 2147483647], or a hexadecimal 32-bit pattern. -/
def Literal.fitsSigned32 : Literal → Bool
  | .dec true magnitude => decide (magnitude ≤ 2147483648)
  | .dec false magnitude => decide (magnitude ≤ 2147483647)
  | .hex value => decide (value < 4294967296)

/-- A line whose operands are all in range. Any other line has no encoding and the assembler rejects it (R69). -/
def SourceLine.wellFormed : SourceLine → Bool
  | .decodeCal => true
  | .compT adc => adc.fitsUnsigned 1048576
  | .compP adc => adc.fitsUnsigned 1048576
  | .compH adc => adc.fitsUnsigned 65536
  | .setTfine tf => tf.fitsSigned32
  | .compRaw => true
  | .measure adcT adcP adcH =>
    adcT.fitsUnsigned 1048576 && adcP.fitsUnsigned 1048576 && adcH.fitsUnsigned 65536
  | .compPh tf adcP adcH => tf.fitsSigned32 && adcP.fitsUnsigned 1048576 && adcH.fitsUnsigned 65536

end Sys2Proof
end

