-- ==== Sys2Proof/Decode.lean ====
section
/-! DEFINITION. The command format, the total decoder, the encoder and the opcode table (spec/30_encoding.md R63 to R68,
R70). -/

namespace Sys2Proof

/-- Why a word selects no row of R65 (the cases of R66). The hardware records none of this (R127). -/
inductive IllegalWord where
  /-- OP is 0x0 or in 0x7 to 0xF. -/
  | opcode
  /-- RSV is not 0. -/
  | reserved
  /-- An ARG bit outside the operand's field is not 0. -/
  | argument
  deriving DecidableEq, Repr

/-- OP, bits 63:60 (R63). -/
def opField (w : Word64) : BitVec 4 := w.extractLsb' 60 4

/-- RSV, bits 59:32 (R63). -/
def rsvField (w : Word64) : BitVec 28 := w.extractLsb' 32 28

/-- ARG, bits 31:0 (R63). -/
def argField (w : Word64) : BitVec 32 := w.extractLsb' 0 32

/-- The operand ADC20 of an ARG (R64): ARG[19:0], and ARG[31:20] must be 0. -/
def adc20Of (arg : BitVec 32) : Except IllegalWord (BitVec 20) :=
  if arg.extractLsb' 20 12 = 0#12 then .ok (arg.extractLsb' 0 20) else .error .argument

/-- The operand ADC16 of an ARG (R64): ARG[15:0], and ARG[31:16] must be 0. -/
def adc16Of (arg : BitVec 32) : Except IllegalWord (BitVec 16) :=
  if arg.extractLsb' 16 16 = 0#16 then .ok (arg.extractLsb' 0 16) else .error .argument

/-- The operand NONE (R64): ARG must be 0. -/
def noOperand (arg : BitVec 32) (i : Instr) : Except IllegalWord Instr :=
  if arg = 0#32 then .ok i else .error .argument

/-- The decoder, total on 64-bit words (R65, R66): the command a word is, or why it is illegal. -/
def decode (w : Word64) : Except IllegalWord Instr :=
  if rsvField w = 0#28 then
    if opField w = 0x1#4 then noOperand (argField w) .decodeCal
    else if opField w = 0x2#4 then (adc20Of (argField w)).map .compT
    else if opField w = 0x3#4 then (adc20Of (argField w)).map .compP
    else if opField w = 0x4#4 then (adc16Of (argField w)).map .compH
    else if opField w = 0x5#4 then .ok (.setTfine (argField w))
    else if opField w = 0x6#4 then noOperand (argField w) .compRaw
    else .error .opcode
  else .error .reserved

/-- The one format with RSV 0 (R63), as R70 writes it: `(OP << 60) | ARG`. -/
def packCommand (op : BitVec 4) (arg : BitVec 32) : Word64 := (op.setWidth 64 <<< 60) ||| arg.setWidth 64

/-- The word of a command (R65, R70). -/
def encode : Instr → Word64
  | .decodeCal => packCommand 0x1#4 0#32
  | .compT adc => packCommand 0x2#4 (adc.setWidth 32)
  | .compP adc => packCommand 0x3#4 (adc.setWidth 32)
  | .compH adc => packCommand 0x4#4 (adc.setWidth 32)
  | .setTfine tf => packCommand 0x5#4 tf
  | .compRaw => packCommand 0x6#4 0#32

/-- A row of the match and mask table of R65. -/
structure OpcodeRow where
  mnemonic : String
  /-- R65's match column. -/
  pattern : Word64
  mask : Word64
  deriving DecidableEq, Repr

/-- R65's match and mask table (spec/opcode_table.json). -/
def opcodeTable : List OpcodeRow :=
  [ ⟨"DECODE_CAL", 0x1000000000000000#64, 0xFFFFFFFFFFFFFFFF#64⟩,
    ⟨"COMP_T", 0x2000000000000000#64, 0xFFFFFFFFFFF00000#64⟩,
    ⟨"COMP_P", 0x3000000000000000#64, 0xFFFFFFFFFFF00000#64⟩,
    ⟨"COMP_H", 0x4000000000000000#64, 0xFFFFFFFFFFFF0000#64⟩,
    ⟨"SET_TFINE", 0x5000000000000000#64, 0xFFFFFFFF00000000#64⟩,
    ⟨"COMP_RAW", 0x6000000000000000#64, 0xFFFFFFFFFFFFFFFF#64⟩ ]

/-- A word selects a row when `w AND mask = match` (R65). -/
def rowSelected (w : Word64) (row : OpcodeRow) : Bool := (w &&& row.mask) == row.pattern

/-- The command word whose bits are the low `nbits` bits of `w`, the bits above them 0. -/
def tableWord (nbits w : Nat) : Word64 := BitVec.ofNat 64 (w % 2 ^ nbits)

/-- What the decoder reads from the instruction whose bits are `w`, as spec/opcode_table.json numbers them. A command is one
64-bit word (R63), so the table's numbering is the word's own. -/
def decodeTableWord (nbits w : Nat) : Option Instr :=
  match decode (tableWord nbits w) with
  | .ok i => some i
  | .error _ => none

end Sys2Proof
end

