-- ==== Sys2Proof/Machine/State.lean ====
section
/-! DEFINITION. The state of one BME280-CC instance and of the host side that drives it (spec/10_state.md R20 to R44,
spec/20_memory.md R45), the model's fault record (spec/60_exceptions.md R126), and the reset value (R43, R142). -/

namespace Sys2Proof.Machine

/-- The coefficient register file CAL: 18 fields (R28 to R31). u16, s16, s12, u8 and s8 fields are held as their bits; a
signed field's value is its `toInt`, an unsigned field's its `toNat`. -/
structure Cal where
  /-- u16 (R28). -/
  digT1 : BitVec 16
  /-- s16 (R28). -/
  digT2 : BitVec 16
  /-- s16 (R28). -/
  digT3 : BitVec 16
  /-- u16 (R29). -/
  digP1 : BitVec 16
  /-- s16 (R29), as the other pressure fields below. -/
  digP2 : BitVec 16
  digP3 : BitVec 16
  digP4 : BitVec 16
  digP5 : BitVec 16
  digP6 : BitVec 16
  digP7 : BitVec 16
  digP8 : BitVec 16
  digP9 : BitVec 16
  /-- u8 (R30). -/
  digH1 : BitVec 8
  /-- s16 (R30). -/
  digH2 : BitVec 16
  /-- u8 (R30). -/
  digH3 : BitVec 8
  /-- s12 (R30). -/
  digH4 : BitVec 12
  /-- s12 (R30). -/
  digH5 : BitVec 12
  /-- s8 (R30). -/
  digH6 : BitVec 8
  deriving DecidableEq, Repr, Inhabited

/-- The sensor register image (R45): address and byte pairs, addresses strictly rising and below 256, no pair whose byte is
what an unlisted address reads as (`Memory.wf`). -/
abbrev Memory := List Host.Cell

/-- What the host can do to the block (R20, R141), one constructor per interaction. The spec gives no other move: none
changes the image or resets the block in the middle of a command (spec/93_implementation_defined.md U12, U13). -/
inductive HostMove where
  /-- Present one word on the command port (R21). -/
  | command (word : Word64)
  /-- Present one index on the read port (R22). -/
  | read (index : Byte)
  /-- Change one byte of the sensor register image between commands (R23, R141). -/
  | supply (address value : Byte)
  /-- Assert reset (R24). -/
  | reset
  deriving DecidableEq, Repr

/-- The model faults of spec/60_exceptions.md R126: they mark a run some of whose values the spec leaves unspecified (R17). Neither
is a hardware signal and neither stops the block (R125, R129): each is recorded and never cleared, and the value it concerns is a
free value (log entries 5, 6, 16). -/
inductive ModelFault where
  /-- F_UNINIT_CAL, code 0x10: COMP_T, COMP_P, COMP_H or COMP_RAW began with STATUS.CAL_VALID 0 (R92). -/
  | uninitCal
  /-- F_UNWRITTEN_READ, code 0x11, with the index: a read of a register whose valid bit is 0 (R40). -/
  | unwrittenRead (index : Byte)
  deriving DecidableEq, Repr

/-- The machine. The first six fields are the complete architectural state of R43, `image` is the input of R45, and `modelFaults`
is R126's record; the last three are the model's own: the moves the host has still to make, what the read port last answered, and
the count of free values taken. -/
structure State where
  /-- The coefficient file (R28 to R31). -/
  cal : Cal
  /-- `T_FINE`, s32 (R32). -/
  tFine : BitVec 32
  /-- `T_OUT`, s32, in 0.01 degree Celsius (R33). -/
  tOut : BitVec 32
  /-- `P_OUT`, u32, in 1/256 Pa (R34). -/
  pOut : BitVec 32
  /-- `H_OUT`, u32, in 1/1024 %RH (R35). -/
  hOut : BitVec 32
  /-- `STATUS`, 32 bits (R36): CAL_VALID 0, TFINE_SET 1, T_VALID 2, P_VALID 3, H_VALID 4, ILL 5, reserved 31:6. -/
  status : BitVec 32
  /-- The sensor register image, an input the host supplies (R43, R45). -/
  image : Memory
  /-- MODEL'S OWN (log entry 2): the host's moves still to come, the next one first. -/
  pending : List HostMove
  /-- MODEL'S OWN (log entry 3): the word the read port returned on the latest read; none before the first. -/
  readData : Option (BitVec 32)
  /-- The model's fault record (R126), oldest first; never cleared, not by reset either (R17). -/
  modelFaults : List ModelFault
  /-- MODEL'S OWN (log entry 16): how many free values have been taken, the argument of the next one. -/
  freeDraws : Nat
  deriving DecidableEq, Repr

/-- Why the machine stops: never. No event stops the block (R125, R127; spec/93_implementation_defined.md part 1), so the type has
no constructor. -/
inductive Fault where
  deriving DecidableEq, Repr

/-- Why a step is refused. No meaning of this model refuses. -/
inductive Refusal where
  /-- Raised only by an arm of `exec` whose instruction has no meaning yet; no arm is one. SAFE: the model stops. -/
  | notModelled (mnemonic : String)
  deriving DecidableEq, Repr

/-- CAL right after reset: R142 gives no value; DESIGN CHOICE zero (log entry 1). Neither a command nor a read looks at it
before DECODE_CAL replaces it: both take a free value instead (R40, R92; log entries 5, 6). -/
def Cal.reset : Cal :=
  { digT1 := 0#16, digT2 := 0#16, digT3 := 0#16,
    digP1 := 0#16, digP2 := 0#16, digP3 := 0#16, digP4 := 0#16, digP5 := 0#16,
    digP6 := 0#16, digP7 := 0#16, digP8 := 0#16, digP9 := 0#16,
    digH1 := 0#8, digH2 := 0#16, digH3 := 0#8, digH4 := 0#12, digH5 := 0#12, digH6 := 0#8 }

/-- The machine right after reset (R43, R142): STATUS and T_FINE are 0 by the spec; CAL, T_OUT, P_OUT and H_OUT have no value
there and are zero here (DESIGN CHOICE, log entry 1); the image has nothing listed, the host has no move to make and the read
port has returned nothing, and no fault is recorded (log entries 2, 3, 4, 16). -/
def State.reset : State :=
  { cal := Cal.reset, tFine := 0#32, tOut := 0#32, pOut := 0#32, hOut := 0#32, status := 0#32,
    image := [], pending := [], readData := none, modelFaults := [], freeDraws := 0 }

end Sys2Proof.Machine
end

