-- ==== Sys2Proof/Config.lean ====
section
/-! DEFINITION. The parameters the spec leaves open (spec/00_scope.md R10; spec/92_eei_decisions.md O1, O2) and its unspecified
values (spec/60_exceptions.md R129), each a constant with no body, so that no proof can rest on a value of it. -/

namespace Sys2Proof

/-- `CMD_LATENCY` (R10, R157, O1): the time from a command's issue to its completion. OPEN in the spec; read only by the
timing view of Machine/System.lean. Log entry 8. -/
opaque Config.cmdLatency : Nat

/-- `NUM_INSTANCES` (R10, R138, O2): how many BME280-CC instances a system holds. OPEN in the spec; read only by the system
view of Machine/System.lean. Log entry 9. -/
opaque Config.numInstances : Nat

/-- FREE VALUE: what the coefficient file holds for a command that begins with CAL_VALID 0, which is unspecified (R92), by the count
of free values taken before. Log entry 16. -/
opaque Config.unspecifiedCal : Nat → Machine.Cal

/-- FREE VALUE: the unspecified word a read of a register without a value returns (R40), by the count of free values taken before.
Log entry 16. -/
opaque Config.unspecifiedWord : Nat → BitVec 32

end Sys2Proof
end

