-- ==== Sys2Proof/Machine/Flags.lean ====
section
/-! DEFINITION. The STATUS register (spec/10_state.md R36, R37): its fields, the one operation that sets a field and the one
that reads the whole word. The block has no arithmetic flags (R27). -/

namespace Sys2Proof.Machine

/-- The fields of STATUS (R36). -/
inductive StatusField where
  | calValid
  | tfineSet
  | tValid
  | pValid
  | hValid
  | ill
  deriving DecidableEq, Repr

/-- The bit R36 gives each field. -/
def statusBit : StatusField → Nat
  | .calValid => 0
  | .tfineSet => 1
  | .tValid => 2
  | .pValid => 3
  | .hValid => 4
  | .ill => 5

/-- Whether a field of a STATUS word is 1. -/
def fieldIsSet (status : BitVec 32) (f : StatusField) : Bool := status.getLsbD (statusBit f)

/-- Whether a field of STATUS is 1. -/
def statusIsSet (f : StatusField) (s : State) : Bool := fieldIsSet s.status f

/-- The word with one field set to 1 and every other bit kept. -/
def withField (status : BitVec 32) (f : StatusField) : BitVec 32 := status ||| BitVec.twoPow 32 (statusBit f)

/-- `STATUS.<field> <- 1`. No command clears a field (R36), so there is no operation that does. -/
def setStatus (f : StatusField) (s : State) : State := { s with status := withField s.status f }

/-- STATUS as the read port returns it: the reserved bits 31:6 are hardwired to 0 (R36, R37). -/
def statusWord (s : State) : BitVec 32 := s.status &&& 0x0000003F#32

end Sys2Proof.Machine
end

