-- ==== Sys2Proof/Machine/Ops.lean ====
section
/-! DEFINITION. The named operations over the registers and the sensor register image: register writes (spec/00_scope.md
R15), byte reads of the image (R16, R45), the CAL_VALID check (R92), the one exception the block takes (R127) and reset
(R24, R142). -/

namespace Sys2Proof.Machine

/-! ## The sensor register image -/

/-- What an address the host has supplied no byte for reads as: 0x00 (DESIGN CHOICE, log entry 4). -/
def Memory.unlistedByte : Byte := 0x00#8

/-- The byte listed for a key, else `Memory.unlistedByte`. -/
def Memory.lookup : Memory → Nat → Byte
  | [], _ => Memory.unlistedByte
  | (k, v) :: rest, a => if k = a then v else Memory.lookup rest a

/-- The list with a key's byte replaced, or the pair put in its place in the order. -/
def Memory.insert : Memory → Nat → Byte → Memory
  | [], a, b => [(a, b)]
  | (k, v) :: rest, a, b =>
    if a < k then (a, b) :: (k, v) :: rest
    else if a = k then (a, b) :: rest
    else (k, v) :: Memory.insert rest a b

/-- The list without a key. -/
def Memory.erase : Memory → Nat → Memory
  | [], _ => []
  | (k, v) :: rest, a => if k = a then rest else (k, v) :: Memory.erase rest a

/-- `MemRead(a, 1)` (R16, R45): every 8-bit address exists and no access is refused (R56). -/
def Memory.readByte (m : Memory) (a : Byte) : Byte := m.lookup a.toNat

/-- The host changes one byte of the image (R141). The block has no such operation: there is no `MemWrite` (R16). -/
def Memory.writeByte (m : Memory) (a b : Byte) : Memory :=
  if b = Memory.unlistedByte then m.erase a.toNat else m.insert a.toNat b

/-- The canonical form: addresses below 256, strictly rising, and no byte equal to what an unlisted address reads as. -/
def Memory.wf : Memory → Bool
  | [] => true
  | (k, v) :: rest =>
    decide (k < 256) && decide (v ≠ Memory.unlistedByte) && rest.all (fun c => decide (k < c.1)) && Memory.wf rest

/-! ## Register writes -/

/-- `CAL <- c`, all 18 fields at once (R31, R85). -/
def writeCal (c : Cal) (s : State) : State := { s with cal := c }

/-- `T_FINE <- v` (R32). -/
def writeTFine (v : BitVec 32) (s : State) : State := { s with tFine := v }

/-- `T_OUT <- v` (R33). -/
def writeTOut (v : BitVec 32) (s : State) : State := { s with tOut := v }

/-- `P_OUT <- v` (R34). -/
def writePOut (v : BitVec 32) (s : State) : State := { s with pOut := v }

/-- `H_OUT <- v` (R35). -/
def writeHOut (v : BitVec 32) (s : State) : State := { s with hOut := v }

/-! ## The host side -/

/-- The host supplies one byte of the image (R23, R141). -/
def supplyByte (a b : Byte) (s : State) : State := { s with image := s.image.writeByte a b }

/-- The host's moves still to come (log entry 2). -/
def writePending (ms : List HostMove) (s : State) : State := { s with pending := ms }

/-- What the read port returned (R22; log entry 3). -/
def writeReadData (w : BitVec 32) (s : State) : State := { s with readData := some w }

/-- The host's next move, and the state with it taken off the list; none when the host has no move to make. -/
def nextMove (s : State) : Option (HostMove × State) :=
  match s.pending with
  | [] => none
  | m :: rest => some (m, writePending rest s)

/-! ## Events -/

/-- `fault F_<NAME>` (R17): the fault goes into the model's fault record (R126), and one free value is counted as taken. No register
changes, and the block goes on (R125, R129). -/
def noteModelFault (f : ModelFault) (s : State) : State :=
  { s with modelFaults := s.modelFaults ++ [f], freeDraws := s.freeDraws + 1 }

/-- The coefficients a command computes with: CAL, or an unspecified file while CAL_VALID is 0 (R92). -/
def coefficientsInUse (s : State) : Cal :=
  if statusIsSet .calValid s then s.cal else Config.unspecifiedCal s.freeDraws

/-- The CAL_VALID check of a command that needs the coefficients: F_UNINIT_CAL if CAL_VALID is 0 (R92). -/
def checkCalibration (s : State) : State :=
  if statusIsSet .calValid s then s else noteModelFault .uninitCal s

/-- A command that needs the coefficients: the check, before anything is read or written (R131), and its effect with the
coefficients in use. It completes whatever CAL_VALID holds (R125, R129). -/
def withCalibration (effect : Cal → State → State) (s : State) : Host.Outcome State Fault Refusal :=
  .next (effect (coefficientsInUse s) (checkCalibration s))

/-- `raise IllegalCommand` (R17, R127): STATUS.ILL <- 1 and nothing else. This is the whole of taking the block's one
exception: no state is saved, no mode changes, control goes nowhere (R132), and there is no return (R133). -/
def raiseIllegalCommand (s : State) : State := setStatus .ill s

/-- The event codes of R126. -/
inductive Event where
  | illegalCommand
  | modelFault (f : ModelFault)
  deriving DecidableEq, Repr

/-- The code R126 gives each event. -/
def eventCode : Event → Nat
  | .illegalCommand => 1
  | .modelFault .uninitCal => 0x10
  | .modelFault (.unwrittenRead _) => 0x11

/-- Reset is asserted (R24, R142): every register takes its reset value. The image is neither read nor changed (R144), the fault
record is never cleared (R17), and the host side is not the block's. -/
def assertReset (s : State) : State :=
  { State.reset with
    image := s.image, pending := s.pending, readData := s.readData, modelFaults := s.modelFaults,
    freeDraws := s.freeDraws }

end Sys2Proof.Machine
end

