-- ==== Sys2Proof/Machine/Operands.lean ====
section
/-! DEFINITION. The arithmetic primitives of the datapaths (spec/00_scope.md R12 to R14), how operands enter a datapath
(spec/30_encoding.md R64, spec/41_compensation.md R91), and how multi-byte quantities are assembled from the image
(spec/20_memory.md R48 to R51, spec/40_calibration.md R75 to R79, spec/42_session.md R120). A value of width N is held as
its N-bit two's-complement pattern, so every operation wraps to N bits before the next one reads it (R13). -/

namespace Sys2Proof.Machine

/-! ## Arithmetic at width N (R13, R14) -/

/-- `add_N`. -/
def addW {n : Nat} (a b : BitVec n) : BitVec n := a + b

/-- `sub_N`. -/
def subW {n : Nat} (a b : BitVec n) : BitVec n := a - b

/-- `mul_N`. -/
def mulW {n : Nat} (a b : BitVec n) : BitVec n := a * b

/-- `shl_N(a, k) = wrap_N(a * 2^k)`. -/
def shlW {n : Nat} (a : BitVec n) (k : Nat) : BitVec n := a <<< k

/-- `asr(a, k) = floor(a / 2^k)`: the arithmetic right shift (R13, R96). -/
def asrW {n : Nat} (a : BitVec n) (k : Nat) : BitVec n := a.sshiftRight k

/-- `tdiv_64(a, b)` for b != 0: the quotient truncated toward zero, wrapped (R13, R104). COMP_P never divides by 0 (R103). -/
def tdiv64 (a b : BitVec 64) : BitVec 64 := a.sdiv b

/-- `clamp(v, lo, hi)` on the integer values (R14). -/
def clampW {n : Nat} (v lo hi : BitVec n) : BitVec n :=
  if v.slt lo then lo else if hi.slt v then hi else v

/-! ## Operands entering a datapath (R64, R91) -/

/-- An unsigned field or ADC code enters zero-extended, its integer value unchanged. -/
def enterU {k : Nat} (n : Nat) (v : BitVec k) : BitVec n := v.setWidth n

/-- A signed field, T_FINE, or the s32 `p` of stage P-C enters sign-extended, its integer value unchanged. -/
def enterS {k : Nat} (n : Nat) (v : BitVec k) : BitVec n := v.signExtend n

/-! ## Assembly from the bytes of one image -/

/-- `u16le(a)`, and `s16le(a)` read as signed: the byte at a is bits 7:0, the byte at a+1 bits 15:8 (R48, R75). -/
def u16le (m : Memory) (a : Byte) : BitVec 16 := m.readByte (a + 1#8) ++ m.readByte a

/-- `h4raw`: bits 11:4 are e4, bits 3:0 are the low nibble of e5 (R77). -/
def h4raw (m : Memory) : BitVec 12 := m.readByte 0xE4#8 ++ (m.readByte 0xE5#8).extractLsb' 0 4

/-- `h5raw`: bits 11:4 are e6, bits 3:0 are the high nibble of e5 (R77). -/
def h5raw (m : Memory) : BitVec 12 := m.readByte 0xE6#8 ++ (m.readByte 0xE5#8).extractLsb' 4 4

/-- A raw 20-bit code at a, a+1, a+2: most significant first, with the high nibble of the last byte (R49, R120). -/
def raw20 (m : Memory) (a : Byte) : BitVec 20 :=
  m.readByte a ++ m.readByte (a + 1#8) ++ (m.readByte (a + 2#8)).extractLsb' 4 4

/-- `adc_P` of the raw sample: 0xF7 to 0xF9 (R120). -/
def rawAdcP (m : Memory) : BitVec 20 := raw20 m 0xF7#8

/-- `adc_T` of the raw sample: 0xFA to 0xFC (R120). -/
def rawAdcT (m : Memory) : BitVec 20 := raw20 m 0xFA#8

/-- `adc_H` of the raw sample: the byte at 0xFD is bits 15:8, the byte at 0xFE bits 7:0 (R50, R120). -/
def rawAdcH (m : Memory) : BitVec 16 := m.readByte 0xFD#8 ++ m.readByte 0xFE#8

end Sys2Proof.Machine
end

