-- ==== Sys2Proof/Machine/Calibration.lean ====
section
/-! DEFINITION. The coefficient bit-extractor and DECODE_CAL (spec/40_calibration.md R74 to R89). -/

namespace Sys2Proof.Machine

/-- The 18 fields that the 32 calibration bytes of one image give (R76, R80 to R84): a pure function, with no error path
(R74). All bytes come from the one image it is given: one snapshot (R53). -/
def decodeCoefficients (m : Memory) : Cal :=
  { digT1 := u16le m 0x88#8
    digT2 := u16le m 0x8A#8
    digT3 := u16le m 0x8C#8
    digP1 := u16le m 0x8E#8
    digP2 := u16le m 0x90#8
    digP3 := u16le m 0x92#8
    digP4 := u16le m 0x94#8
    digP5 := u16le m 0x96#8
    digP6 := u16le m 0x98#8
    digP7 := u16le m 0x9A#8
    digP8 := u16le m 0x9C#8
    digP9 := u16le m 0x9E#8
    digH1 := m.readByte 0xA1#8
    digH2 := u16le m 0xE1#8
    digH3 := m.readByte 0xE3#8
    digH4 := h4raw m
    digH5 := h5raw m
    digH6 := m.readByte 0xE7#8 }

/-- DECODE_CAL (R80 to R87): all 18 fields from one snapshot and CAL_VALID; legal whatever STATUS holds; it cannot fail. -/
def execDecodeCal (s : State) : Host.Outcome State Fault Refusal :=
  .next (setStatus .calValid (writeCal (decodeCoefficients s.image) s))

end Sys2Proof.Machine
end

