-- ==== Sys2Proof/Machine/Compensation.lean ====
section
/-! DEFINITION. The compensation pipeline: COMP_T, COMP_P and COMP_H (spec/41_compensation.md R90 to R117). The stage
functions follow the rules' pseudocode operation by operation. Where a rule adds a constant to a term, the constant is written
first: the sum is the same, and Lean's kernel then never counts the constant down. Each `perform` function is a command's
writes without its CAL_VALID check, as COMP_RAW performs it (spec/42_session.md R121), with the coefficients it uses. -/

namespace Sys2Proof.Machine

/-! ## COMP_T -/

/-- Stages T-A to T-C on the s32 datapath (R93): `(tf, t)`. -/
def temperatureStages (c : Cal) (adc : BitVec 20) : BitVec 32 × BitVec 32 :=
  let t1 := enterU 32 c.digT1
  let t2 := enterS 32 c.digT2
  let t3 := enterS 32 c.digT3
  let code := enterU 32 adc
  let a1 := subW (asrW code 3) (shlW t1 1)
  let var1 := asrW (mulW a1 t2) 11
  let d := subW (asrW code 4) t1
  let sq := asrW (mulW d d) 12
  let var2 := asrW (mulW sq t3) 14
  let tf := addW var1 var2
  let t := asrW (addW 128#32 (mulW tf 5#32)) 8
  (tf, t)

/-- COMP_T's writes (R95). -/
def performCompT (adc : BitVec 20) (c : Cal) (s : State) : State :=
  let r := temperatureStages c adc
  setStatus .tValid (setStatus .tfineSet (writeTOut r.2 (writeTFine r.1 s)))

/-- COMP_T (R93, R95). -/
def execCompT (adc : BitVec 20) (s : State) : Host.Outcome State Fault Refusal :=
  withCalibration (performCompT adc) s

/-! ## COMP_P -/

/-- `var1` as stage P-A leaves it (R101): T_FINE sign-extended to 64 bits (R91), less 128000. -/
def pressureOffset (tf : BitVec 32) : BitVec 64 := subW (enterS 64 tf) 128000#64

/-- `var2` as stage P-A leaves it (R101). -/
def pressureVar2 (c : Cal) (tf : BitVec 32) : BitVec 64 :=
  let var1 := pressureOffset tf
  let p4 := enterS 64 c.digP4
  let p5 := enterS 64 c.digP5
  let p6 := enterS 64 c.digP6
  let var2 := mulW (mulW var1 var1) p6
  let var2 := addW var2 (shlW (mulW var1 p5) 17)
  addW var2 (shlW p4 35)

/-- Stage P-B: the denominator `var1` (R102). -/
def pressureDenominator (c : Cal) (tf : BitVec 32) : BitVec 64 :=
  let var1 := pressureOffset tf
  let p1 := enterU 64 c.digP1
  let p2 := enterS 64 c.digP2
  let p3 := enterS 64 c.digP3
  let var1 := addW (asrW (mulW (mulW var1 var1) p3) 8) (shlW (mulW var1 p2) 12)
  asrW (mulW (addW 0x0000800000000000#64 var1) p1) 33

/-- Stage P-C: the division, for a denominator that is not 0 (R104). -/
def pressureQuotient (adc : BitVec 20) (var1 var2 : BitVec 64) : BitVec 64 :=
  let p := enterS 64 (subW 1048576#32 (enterU 32 adc))
  tdiv64 (mulW (subW (shlW p 31) var2) 3125#64) var1

/-- Stage P-D: the second-order correction (R105). -/
def pressureCorrection (c : Cal) (p : BitVec 64) : BitVec 64 :=
  let p7 := enterS 64 c.digP7
  let p8 := enterS 64 c.digP8
  let p9 := enterS 64 c.digP9
  let var1 := asrW (mulW (mulW p9 (asrW p 13)) (asrW p 13)) 25
  let var2 := asrW (mulW p8 p) 19
  addW (asrW (addW (addW p var1) var2) 8) (shlW p7 4)

/-- Stages P-A to P-D on the s64 datapath (R100 to R105), with the zero sentinel for a zero denominator (R103). -/
def pressureStages (c : Cal) (tf : BitVec 32) (adc : BitVec 20) : BitVec 64 :=
  let var1 := pressureDenominator c tf
  if var1 = 0#64 then 0#64
  else pressureCorrection c (pressureQuotient adc var1 (pressureVar2 c tf))

/-- COMP_P's writes (R107): `trunc_u32` of the s64 result. -/
def performCompP (adc : BitVec 20) (c : Cal) (s : State) : State :=
  setStatus .pValid (writePOut ((pressureStages c s.tFine adc).setWidth 32) s)

/-- COMP_P (R100, R107). -/
def execCompP (adc : BitVec 20) (s : State) : Host.Outcome State Fault Refusal :=
  withCalibration (performCompP adc) s

/-! ## COMP_H -/

/-- Stage H-A: the offset term `x1`, from `v` (R111). -/
def humidityOffset (c : Cal) (adc : BitVec 16) (v : BitVec 32) : BitVec 32 :=
  let h4 := enterS 32 c.digH4
  let h5 := enterS 32 c.digH5
  asrW (addW 16384#32 (subW (subW (shlW (enterU 32 adc) 14) (shlW h4 20)) (mulW h5 v))) 15

/-- Stage H-B: the temperature-dependent gain `g5`, from `v` of stage H-A (R112). -/
def humidityGain (c : Cal) (v : BitVec 32) : BitVec 32 :=
  let h2 := enterS 32 c.digH2
  let h3 := enterU 32 c.digH3
  let h6 := enterS 32 c.digH6
  let g1 := asrW (mulW v h6) 10
  let g2 := addW 32768#32 (asrW (mulW v h3) 11)
  let g3 := asrW (mulW g1 g2) 10
  let g4 := addW 2097152#32 g3
  asrW (addW 8192#32 (mulW g4 h2)) 14

/-- Stage H-C: the product and the quadratic correction (R113). -/
def humidityCorrection (c : Cal) (x1 g5 : BitVec 32) : BitVec 32 :=
  let h1 := enterU 32 c.digH1
  let v := mulW x1 g5
  let q := asrW v 15
  subW v (asrW (mulW (asrW (mulW q q) 7) h1) 4)

/-- Stages H-A to H-C on the s32 datapath (R110 to R113): `v` before the clamp. -/
def humidityStages (c : Cal) (tf : BitVec 32) (adc : BitVec 16) : BitVec 32 :=
  let v := subW tf 76800#32
  humidityCorrection c (humidityOffset c adc v) (humidityGain c v)

/-- The clamp and the final shift (R114, R115). -/
def humidityResult (v : BitVec 32) : BitVec 32 := asrW (clampW v 0#32 419430400#32) 12

/-- COMP_H's writes (R115). -/
def performCompH (adc : BitVec 16) (c : Cal) (s : State) : State :=
  setStatus .hValid (writeHOut (humidityResult (humidityStages c s.tFine adc)) s)

/-- COMP_H (R110, R115). -/
def execCompH (adc : BitVec 16) (s : State) : Host.Outcome State Fault Refusal :=
  withCalibration (performCompH adc) s

end Sys2Proof.Machine
end

