-- ==== Sys2Proof/Machine/Session.lean ====
section
/-! DEFINITION. The session commands: SET_TFINE and COMP_RAW (spec/42_session.md R118 to R124). -/

namespace Sys2Proof.Machine

/-- SET_TFINE (R118): legal whatever CAL_VALID holds; it writes no T_OUT and no T_VALID (R119). -/
def execSetTfine (tf : BitVec 32) (s : State) : Host.Outcome State Fault Refusal :=
  .next (setStatus .tfineSet (writeTFine tf s))

/-- COMP_RAW's writes (R121): the three compensations in order on one snapshot of the raw bytes, each reading the T_FINE
that this command's own COMP_T step wrote (R122). DESIGN CHOICE (log entry 17): it reads the image with CAL_VALID 0 too, where L2.8
says of the model fault that the image is not read and R92 and R129 let the hardware complete. -/
def performCompRaw (c : Cal) (s : State) : State :=
  performCompH (rawAdcH s.image) c (performCompP (rawAdcP s.image) c (performCompT (rawAdcT s.image) c s))

/-- COMP_RAW (R121): one CAL_VALID check, before the image is read or anything is written (R131); one coefficient
file for all three. With CAL_VALID 0 it goes on after the check (log entries 5, 17). -/
def execCompRaw (s : State) : Host.Outcome State Fault Refusal :=
  withCalibration performCompRaw s

end Sys2Proof.Machine
end

