-- ==== Sys2Proof/Machine/Dispatch.lean ====
section
/-! DEFINITION. `exec`: one arm per command, each one call of its meaning. -/

namespace Sys2Proof.Machine

/-- What a legal command does to the state (spec/30_encoding.md R65). -/
def exec (i : Instr) (s : State) : Host.Outcome State Fault Refusal :=
  match i with
  | .decodeCal => Sys2Proof.Machine.execDecodeCal s
  | .compT adc => Sys2Proof.Machine.execCompT adc s
  | .compP adc => Sys2Proof.Machine.execCompP adc s
  | .compH adc => Sys2Proof.Machine.execCompH adc s
  | .setTfine tf => Sys2Proof.Machine.execSetTfine tf s
  | .compRaw => Sys2Proof.Machine.execCompRaw s

end Sys2Proof.Machine
end

