-- ==== Sys2Proof/Machine/ReadPort.lean ====
section
/-! DEFINITION. The host read port (spec/10_state.md R22, R38 to R40). -/

namespace Sys2Proof.Machine

/-- The word of a CAL index 0x10 to 0x21 (R38): an unsigned field zero-extended, a signed field sign-extended, to 32 bits;
none for any other index. -/
def calWord (c : Cal) (index : Byte) : Option (BitVec 32) :=
  if index = 0x10#8 then some (c.digT1.setWidth 32)
  else if index = 0x11#8 then some (c.digT2.signExtend 32)
  else if index = 0x12#8 then some (c.digT3.signExtend 32)
  else if index = 0x13#8 then some (c.digP1.setWidth 32)
  else if index = 0x14#8 then some (c.digP2.signExtend 32)
  else if index = 0x15#8 then some (c.digP3.signExtend 32)
  else if index = 0x16#8 then some (c.digP4.signExtend 32)
  else if index = 0x17#8 then some (c.digP5.signExtend 32)
  else if index = 0x18#8 then some (c.digP6.signExtend 32)
  else if index = 0x19#8 then some (c.digP7.signExtend 32)
  else if index = 0x1A#8 then some (c.digP8.signExtend 32)
  else if index = 0x1B#8 then some (c.digP9.signExtend 32)
  else if index = 0x1C#8 then some (c.digH1.setWidth 32)
  else if index = 0x1D#8 then some (c.digH2.signExtend 32)
  else if index = 0x1E#8 then some (c.digH3.setWidth 32)
  else if index = 0x1F#8 then some (c.digH4.signExtend 32)
  else if index = 0x20#8 then some (c.digH5.signExtend 32)
  else if index = 0x21#8 then some (c.digH6.signExtend 32)
  else none

/-- A register that has a value only when its valid bit is 1; else F_UNWRITTEN_READ with the index (R40). -/
def readWhenSet (f : StatusField) (index : Byte) (w : BitVec 32) (s : State) : Except ModelFault (BitVec 32) :=
  if statusIsSet f s then .ok w else .error (.unwrittenRead index)

/-- What the read port answers for each index (R38 to R40). A reserved index reads as 0 (R39). -/
def readPort (index : Byte) (s : State) : Except ModelFault (BitVec 32) :=
  if index = 0x00#8 then .ok (statusWord s)
  else if index = 0x01#8 then readWhenSet .tValid index s.tOut s
  else if index = 0x02#8 then readWhenSet .pValid index s.pOut s
  else if index = 0x03#8 then readWhenSet .hValid index s.hOut s
  else if index = 0x04#8 then .ok s.tFine
  else match calWord s.cal index with
    | some w => readWhenSet .calValid index w s
    | none => .ok 0#32

/-- The host reads one index (R22): the answer goes out on the port and no state of the block changes. A register that has no value
answers an unspecified word, and the model records F_UNWRITTEN_READ (R40, R126, R129). -/
def readMove (index : Byte) (s : State) : Host.Outcome State Fault Refusal :=
  match readPort index s with
  | .ok w => .next (writeReadData w s)
  | .error f => .next (writeReadData (Config.unspecifiedWord s.freeDraws) (noteModelFault f s))

end Sys2Proof.Machine
end

