-- ==== Sys2Proof/Machine/HostPort.lean ====
section
/-! DEFINITION. The block's four interfaces driven by the host (spec/10_state.md R20 to R24): what each move of the host
does, and the host's next move taken and performed. -/

namespace Sys2Proof.Machine

/-- The command port (R21): a legal word runs its command, an illegal one raises IllegalCommand (R66, R127). The decode check
comes before any other (R131). -/
def issueCommand (w : Word64) (s : State) : Host.Outcome State Fault Refusal :=
  match decode w with
  | .ok i => exec i s
  | .error _ => .next (raiseIllegalCommand s)

/-- One move of the host (R141). -/
def performMove (m : HostMove) (s : State) : Host.Outcome State Fault Refusal :=
  match m with
  | .command w => issueCommand w s
  | .read index => readMove index s
  | .supply a b => .next (supplyByte a b s)
  | .reset => .next (assertReset s)

/-- The host's moves are served one at a time, in the order made, each to completion before the next (R21, R57). With no
move to serve the block waits and nothing changes (R143). -/
def serveHost (s : State) : Host.Outcome State Fault Refusal :=
  match nextMove s with
  | none => .next s
  | some (m, rest) => performMove m rest

/-- The state in which the host's very next move is to present the word `w` on the command port. -/
def placeCommand (w : Word64) (s : State) : State := writePending (.command w :: s.pending) s

end Sys2Proof.Machine
end

