-- ==== Sys2Proof/Machine/Step.lean ====
section
/-! DEFINITION. One step: the host's next move (spec/10_state.md R21, R57). -/

namespace Sys2Proof.Machine

/-- One step: the block serves the host's next move. -/
def step (s : State) : Host.Outcome State Fault Refusal := serveHost s

/-- `s` with the command whose bits are `w` (numbered as spec/opcode_table.json numbers them) presented next. -/
def State.withFetchWord (s : State) (nbits w : Nat) : State := placeCommand (tableWord nbits w) s

end Sys2Proof.Machine
end

