-- ==== Sys2Proof/Machine/Assembler.lean ====
section
/-! DEFINITION. The assembler (spec/30_encoding.md R69 to R72): a source line to its command words, and a line of text to a
source line. It is the host's tool, not the block's: the step function does not read it. -/

namespace Sys2Proof.Machine

/-! ## Lines to words (R70 to R72) -/

/-- The operand's field of `n` bits: for SET_TFINE `trunc_u32(operand)` (R70), a hexadecimal operand its pattern (R69). -/
def literalBits (n : Nat) : Literal → BitVec n
  | .dec true magnitude => -BitVec.ofNat n magnitude
  | .dec false magnitude => BitVec.ofNat n magnitude
  | .hex value => BitVec.ofNat n value

/-- The commands a line stands for, in issue order: one, or three for a pseudo-instruction (R71, R72). -/
def expandLine : SourceLine → List Instr
  | .decodeCal => [.decodeCal]
  | .compT adc => [.compT (literalBits 20 adc)]
  | .compP adc => [.compP (literalBits 20 adc)]
  | .compH adc => [.compH (literalBits 16 adc)]
  | .setTfine tf => [.setTfine (literalBits 32 tf)]
  | .compRaw => [.compRaw]
  | .measure adcT adcP adcH =>
    [.compT (literalBits 20 adcT), .compP (literalBits 20 adcP), .compH (literalBits 16 adcH)]
  | .compPh tf adcP adcH =>
    [.setTfine (literalBits 32 tf), .compP (literalBits 20 adcP), .compH (literalBits 16 adcH)]

/-- The words of a line; none for a line with an operand out of range, which the assembler rejects (R69). -/
def assembleLine (l : SourceLine) : Option (List Word64) :=
  if l.wellFormed then some ((expandLine l).map encode) else none

/-! ## Text to lines (R69) -/

/-- A digit's value in a base of at most 16, hexadecimal letters in either case (log entry 7). -/
def digitValue (base : Nat) (c : Char) : Option Nat :=
  let n := c.toNat
  let v := if 48 ≤ n ∧ n ≤ 57 then n - 48
    else if 65 ≤ n ∧ n ≤ 70 then n - 55
    else if 97 ≤ n ∧ n ≤ 102 then n - 87
    else 16
  if v < base then some v else none

/-- Digits, most significant first, after those already read; none if one is no digit of the base. -/
def digitsValue (base : Nat) : List Char → Nat → Option Nat
  | [], acc => some acc
  | c :: cs, acc =>
    match digitValue base c with
    | some d => digitsValue base cs (acc * base + d)
    | none => none

/-- A number: at least one digit, all of the base. -/
def parseNumber (base : Nat) (cs : List Char) : Option Nat :=
  if cs.isEmpty then none else digitsValue base cs 0

/-- An operand: `0x` and hexadecimal digits, or decimal digits with an optional `-` in front (R69). -/
def parseLiteral : List Char → Option Literal
  | '0' :: 'x' :: ds => (parseNumber 16 ds).map .hex
  | '-' :: ds => (parseNumber 10 ds).map (.dec true)
  | ds => (parseNumber 10 ds).map (.dec false)

/-- A word under way, closed; nothing if it is empty. -/
def closeWord (word : List Char) : List (List Char) := if word.isEmpty then [] else [word.reverse]

/-- The words of a line up to its comment (R69): parted by blanks and tabs, a comma being a word of its own (log entry 7). -/
def lineWords : List Char → List Char → List (List Char)
  | [], word => closeWord word
  | c :: cs, word =>
    if c = ';' then closeWord word
    else if c = ' ' ∨ c = '\t' then closeWord word ++ lineWords cs []
    else if c = ',' then closeWord word ++ [','] :: lineWords cs []
    else lineWords cs (c :: word)

/-- A line with no operand. -/
def parseBare (mnemonic : List Char) : Option SourceLine :=
  if mnemonic = ['D', 'E', 'C', 'O', 'D', 'E', '_', 'C', 'A', 'L'] then some .decodeCal
  else if mnemonic = ['C', 'O', 'M', 'P', '_', 'R', 'A', 'W'] then some .compRaw
  else none

/-- A line with one operand. -/
def parseOne (mnemonic : List Char) (a : Literal) : Option SourceLine :=
  if mnemonic = ['C', 'O', 'M', 'P', '_', 'T'] then some (.compT a)
  else if mnemonic = ['C', 'O', 'M', 'P', '_', 'P'] then some (.compP a)
  else if mnemonic = ['C', 'O', 'M', 'P', '_', 'H'] then some (.compH a)
  else if mnemonic = ['S', 'E', 'T', '_', 'T', 'F', 'I', 'N', 'E'] then some (.setTfine a)
  else none

/-- A line with three operands: a pseudo-instruction (R71, R72). -/
def parseThree (mnemonic : List Char) (a b c : Literal) : Option SourceLine :=
  if mnemonic = ['M', 'E', 'A', 'S', 'U', 'R', 'E'] then some (.measure a b c)
  else if mnemonic = ['C', 'O', 'M', 'P', '_', 'P', 'H'] then some (.compPh a b c)
  else none

/-- A line's words read as a line; `some none` for a line with no words. -/
def parseWords : List (List Char) → Option (Option SourceLine)
  | [] => some none
  | [mnemonic] => (parseBare mnemonic).map some
  | [mnemonic, a] => do return some (← parseOne mnemonic (← parseLiteral a))
  | [mnemonic, a, [','], b, [','], c] => do
    return some (← parseThree mnemonic (← parseLiteral a) (← parseLiteral b) (← parseLiteral c))
  | _ => none

/-- The words of one line of text; none where the assembler rejects it (R69). -/
def assembleText (cs : List Char) : Option (List Word64) :=
  match parseWords (lineWords cs []) with
  | none => none
  | some none => some []
  | some (some l) => assembleLine l

end Sys2Proof.Machine
end

