-- ==== Sys2Proof/Machine/System.lean ====
section
/-! DEFINITION. The two views the spec's open parameters belong to (spec/92_eei_decisions.md O1, O2): several instances side
by side (spec/60_exceptions.md R138), and the time commands take (spec/70_reset_and_hazards.md R157). The machine of
Machine/Core.lean is one instance without time. -/

namespace Sys2Proof.Machine

/-- A system: each instance with its own copy of every register (R44, R138). -/
abbrev System := List State

/-- `NUM_INSTANCES` instances, each right after reset. -/
def systemReset : System := List.replicate Config.numInstances State.reset

/-- Instance `k` serves its host's next move; a system with no such instance stays as it is. -/
def systemStep (k : Nat) (sys : System) : Host.Outcome System Fault Refusal :=
  match sys[k]? with
  | none => .next sys
  | some s =>
    match step s with
    | .next t => .next (sys.set k t)
    | .fault f => .fault f
    | .refused r => .refused r

/-- One instance, and the time its commands have taken so far. -/
structure Timed where
  state : State
  now : Nat
  deriving DecidableEq, Repr

/-- The time a move takes: for a command, from its issue to its completion (R157). The spec speaks of no other time. -/
def moveTime (latency : Nat) : HostMove → Nat
  | .command _ => latency
  | .read _ => 0
  | .supply _ _ => 0
  | .reset => 0

/-- The time the host's next move takes. -/
def stepTime (latency : Nat) (s : State) : Nat :=
  match nextMove s with
  | none => 0
  | some (m, _) => moveTime latency m

/-- One step, with a command latency as argument (R10). -/
def timedStep (latency : Nat) (t : Timed) : Host.Outcome Timed Fault Refusal :=
  match step t.state with
  | .next s => .next { state := s, now := t.now + stepTime latency t.state }
  | .fault f => .fault f
  | .refused r => .refused r

/-- One step with the block's own `CMD_LATENCY`. -/
def blockTimedStep (t : Timed) : Host.Outcome Timed Fault Refusal := timedStep Config.cmdLatency t

end Sys2Proof.Machine
end

