-- ==== Sys2Proof/Safety.lean ====
section
/-! DEFINITION. What claims about runs are stated in: the invariant of the state, what a move does to STATUS, and a host that
keeps its duties (spec/60_exceptions.md R141, spec/70_reset_and_hazards.md R149). -/

namespace Sys2Proof.Machine

/-- What holds of every state the machine can be in: STATUS's reserved bits are 0 (R36, R37), the image has its canonical
form, H_OUT is in [0, 102400] (R35), T_FINE holds its reset value 0 while TFINE_SET is 0 (R36), and T_VALID comes with
TFINE_SET, since whatever sets T_VALID sets both (R36). -/
abbrev Inv (s : State) : Prop :=
  s.status &&& 0xFFFFFFC0#32 = 0#32 ∧ s.image.wf = true ∧ s.hOut.toNat ≤ 102400 ∧
  (statusIsSet .tfineSet s = false → s.tFine = 0#32) ∧
  (statusIsSet .tValid s = true → statusIsSet .tfineSet s = true)

/-- The fields of STATUS a command sets (R36's table, read by command). -/
def fieldsSetBy : Instr → List StatusField
  | .decodeCal => [.calValid]
  | .compT _ => [.tfineSet, .tValid]
  | .compP _ => [.pValid]
  | .compH _ => [.hValid]
  | .setTfine _ => [.tfineSet]
  | .compRaw => [.tfineSet, .tValid, .pValid, .hValid]

/-- Whether a command uses the coefficients (R92). -/
def needsCalibration : Instr → Bool
  | .decodeCal => false
  | .compT _ => true
  | .compP _ => true
  | .compH _ => true
  | .setTfine _ => false
  | .compRaw => true

/-- The valid bit that a read of an index waits for (R40); none for an index that always has a value. -/
def fieldRead (index : Byte) : Option StatusField :=
  if index = 0x01#8 then some .tValid
  else if index = 0x02#8 then some .pValid
  else if index = 0x03#8 then some .hValid
  else if 0x10 ≤ index.toNat ∧ index.toNat ≤ 0x21 then some .calValid
  else none

/-- STATUS after a move, from STATUS before it alone (R36, R127, R142). -/
def statusAfter (status : BitVec 32) : HostMove → BitVec 32
  | .command w =>
    match decode w with
    | .ok i => (fieldsSetBy i).foldl withField status
    | .error _ => withField status .ill
  | .read _ => status
  | .supply _ _ => status
  | .reset => 0#32

/-- A move the host's duties allow (R141): calibrate before compensating, and read only what has a value. -/
def moveAllowed (status : BitVec 32) : HostMove → Bool
  | .command w =>
    match decode w with
    | .ok i => !needsCalibration i || fieldIsSet status .calValid
    | .error _ => true
  | .read index =>
    match fieldRead index with
    | none => true
    | some f => fieldIsSet status f
  | .supply _ _ => true
  | .reset => true

/-- A list of moves that keeps the host's duties throughout, from a STATUS. -/
def hostObeys (status : BitVec 32) : List HostMove → Bool
  | [] => true
  | m :: rest => moveAllowed status m && hostObeys (statusAfter status m) rest

/-- The addresses of the image that a command reads (R46, "bytes read"): 32 for DECODE_CAL, 8 for COMP_RAW, none for the
others (R45). -/
def bytesReadBy : Instr → List Nat
  | .decodeCal =>
    [0x88, 0x89, 0x8A, 0x8B, 0x8C, 0x8D, 0x8E, 0x8F, 0x90, 0x91, 0x92, 0x93, 0x94, 0x95, 0x96, 0x97,
     0x98, 0x99, 0x9A, 0x9B, 0x9C, 0x9D, 0x9E, 0x9F, 0xA1, 0xE1, 0xE2, 0xE3, 0xE4, 0xE5, 0xE6, 0xE7]
  | .compRaw => [0xF7, 0xF8, 0xF9, 0xFA, 0xFB, 0xFC, 0xFD, 0xFE]
  | .compT _ => []
  | .compP _ => []
  | .compH _ => []
  | .setTfine _ => []

/-- `n` steps: what `Host.Core.run` of the machine is (Laws/Run.lean). The interface lets a step fault or be refused; no step of
this machine does. -/
def runSteps : Nat → State → Host.Outcome State Fault Refusal
  | 0, s => .next s
  | n + 1, s =>
    match step s with
    | .next t => runSteps n t
    | .fault f => .fault f
    | .refused r => .refused r

/-- The outcome with its next state changed by a function; a fault or a refusal as it was. -/
def onNext (f : State → State) : Host.Outcome State Fault Refusal → Host.Outcome State Fault Refusal
  | .next t => .next (f t)
  | .fault r => .fault r
  | .refused r => .refused r

/-- CAL-A, the example calibration set of spec/95_test_vectors.md. -/
def calA : Cal :=
  { digT1 := BitVec.ofInt 16 27504, digT2 := BitVec.ofInt 16 26435, digT3 := BitVec.ofInt 16 (-1000),
    digP1 := BitVec.ofInt 16 36477, digP2 := BitVec.ofInt 16 (-10685), digP3 := BitVec.ofInt 16 3024,
    digP4 := BitVec.ofInt 16 2855, digP5 := BitVec.ofInt 16 140, digP6 := BitVec.ofInt 16 (-7),
    digP7 := BitVec.ofInt 16 15500, digP8 := BitVec.ofInt 16 (-14600), digP9 := BitVec.ofInt 16 6000,
    digH1 := BitVec.ofInt 8 75, digH2 := BitVec.ofInt 16 362, digH3 := BitVec.ofInt 8 0,
    digH4 := BitVec.ofInt 12 313, digH5 := BitVec.ofInt 12 50, digH6 := BitVec.ofInt 8 30 }

end Sys2Proof.Machine
end

