-- ==== Sys2Proof/Safety/Pseudocode.lean ====
section
/-! DEFINITION. The rules' pseudocode on mathematical integers (spec/00_scope.md R11 to R14), written apart from the machine,
which computes on bit patterns. Claims about results say that the machine gives what these functions give. -/

namespace Sys2Proof.Pseudocode

/-! ## Primitives (R12 to R14) -/

/-- `wrap_N(v) = ((v + 2^(N-1)) mod 2^N) - 2^(N-1)`. -/
def wrap (n : Nat) (v : Int) : Int := (v + 2 ^ (n - 1)) % 2 ^ n - 2 ^ (n - 1)

/-- `sext_N(b)`: `b - 2^N` if bit N-1 of the pattern is 1, else `b`. -/
def sext (n : Nat) (b : Int) : Int := if 2 ^ (n - 1) ≤ b then b - 2 ^ n else b

/-- `trunc_u32(v) = v mod 2^32`. -/
def truncU32 (v : Int) : Int := v % 2 ^ 32

/-- `add_N`. -/
def add (n : Nat) (a b : Int) : Int := wrap n (a + b)

/-- `sub_N`. -/
def sub (n : Nat) (a b : Int) : Int := wrap n (a - b)

/-- `mul_N`. -/
def mul (n : Nat) (a b : Int) : Int := wrap n (a * b)

/-- `shl_N(a, k) = wrap_N(a * 2^k)`. -/
def shl (n : Nat) (a : Int) (k : Nat) : Int := wrap n (a * 2 ^ k)

/-- `asr(a, k) = floor(a / 2^k)`. -/
def asr (a : Int) (k : Nat) : Int := Int.fdiv a (2 ^ k)

/-- `tdiv_64(a, b)`: the quotient truncated toward zero, wrapped to 64 bits. -/
def tdiv64 (a b : Int) : Int := wrap 64 (Int.tdiv a b)

/-- `clamp(v, lo, hi)`. -/
def clamp (v lo hi : Int) : Int := if v < lo then lo else if v > hi then hi else v

/-! ## COMP_T (R93): (tf, t) -/

def compT (T1 T2 T3 adc : Int) : Int × Int :=
  let a1 := sub 32 (asr adc 3) (shl 32 T1 1)
  let var1 := asr (mul 32 a1 T2) 11
  let d := sub 32 (asr adc 4) T1
  let sq := asr (mul 32 d d) 12
  let var2 := asr (mul 32 sq T3) 14
  let tf := add 32 var1 var2
  let t := asr (add 32 (mul 32 tf 5) 128) 8
  (tf, t)

/-! ## COMP_P (R100 to R105): the s64 result -/

/-- The final `var1` of stage P-B (R102), from `var1` of stage P-A (R101). -/
def pressureVar1 (P1 P2 P3 tf : Int) : Int :=
  let var1 := sub 64 tf 128000
  let var1 := add 64 (asr (mul 64 (mul 64 var1 var1) P3) 8) (shl 64 (mul 64 var1 P2) 12)
  asr (mul 64 (add 64 (2 ^ 47) var1) P1) 33

/-- `var2` of stage P-A (R101). -/
def pressureVar2 (P4 P5 P6 tf : Int) : Int :=
  let var1 := sub 64 tf 128000
  let var2 := mul 64 (mul 64 var1 var1) P6
  let var2 := add 64 var2 (shl 64 (mul 64 var1 P5) 17)
  add 64 var2 (shl 64 P4 35)

/-- Stages P-A to P-D, with the sentinel (R103). -/
def compP (P1 P2 P3 P4 P5 P6 P7 P8 P9 tf adc : Int) : Int :=
  let var2 := pressureVar2 P4 P5 P6 tf
  let var1 := pressureVar1 P1 P2 P3 tf
  if var1 = 0 then 0
  else
    let p := sub 32 1048576 adc
    let p := tdiv64 (mul 64 (sub 64 (shl 64 p 31) var2) 3125) var1
    let var1 := asr (mul 64 (mul 64 P9 (asr p 13)) (asr p 13)) 25
    let var2 := asr (mul 64 P8 p) 19
    add 64 (asr (add 64 (add 64 p var1) var2) 8) (shl 64 P7 4)

/-! ## COMP_H (R110 to R115) -/

/-- `v` left by stage H-C (R111 to R113). -/
def humidityV (H1 H2 H3 H4 H5 H6 tf adc : Int) : Int :=
  let v := sub 32 tf 76800
  let x1 := asr (add 32 (sub 32 (sub 32 (shl 32 adc 14) (shl 32 H4 20)) (mul 32 H5 v)) 16384) 15
  let g1 := asr (mul 32 v H6) 10
  let g2 := add 32 (asr (mul 32 v H3) 11) 32768
  let g3 := asr (mul 32 g1 g2) 10
  let g4 := add 32 g3 2097152
  let g5 := asr (add 32 (mul 32 g4 H2) 8192) 14
  let v := mul 32 x1 g5
  let q := asr v 15
  sub 32 v (asr (mul 32 (asr (mul 32 q q) 7) H1) 4)

/-- `H_OUT` (R114, R115). -/
def compH (H1 H2 H3 H4 H5 H6 tf adc : Int) : Int :=
  asr (clamp (humidityV H1 H2 H3 H4 H5 H6 tf adc) 0 419430400) 12

/-! ## The results for a coefficient file, T_FINE and an ADC code (R91) -/

open Sys2Proof.Machine

/-- COMP_T's `(tf, t)`. -/
def temperature (c : Cal) (adc : Int) : Int × Int := compT c.digT1.toNat c.digT2.toInt c.digT3.toInt adc

/-- COMP_P's s64 result. -/
def pressure (c : Cal) (tf adc : Int) : Int :=
  compP c.digP1.toNat c.digP2.toInt c.digP3.toInt c.digP4.toInt c.digP5.toInt c.digP6.toInt c.digP7.toInt
    c.digP8.toInt c.digP9.toInt tf adc

/-- COMP_H's `H_OUT`. -/
def humidity (c : Cal) (tf adc : Int) : Int :=
  compH c.digH1.toNat c.digH2.toInt c.digH3.toNat c.digH4.toInt c.digH5.toInt c.digH6.toInt tf adc

/-! ## The bytes of an image (R16, R75, R77, R120) -/

/-- `b[x]`, the byte at address x, an integer. -/
def byteAt (m : Memory) (x : Nat) : Int := (m.readByte (BitVec.ofNat 8 x)).toNat

/-- `u16le(a) = b[a] + 256 * b[a+1]` (R75). -/
def u16le (m : Memory) (a : Nat) : Int := byteAt m a + 256 * byteAt m (a + 1)

/-- `s16le(a)` (R75). -/
def s16le (m : Memory) (a : Nat) : Int := sext 16 (u16le m a)

/-- `h4raw = (e4 << 4) | (e5 & 0x0F)` (R77). -/
def h4raw (m : Memory) : Int := byteAt m 0xE4 * 16 + byteAt m 0xE5 % 16

/-- `h5raw = (e5 >> 4) | (e6 << 4)` (R77). -/
def h5raw (m : Memory) : Int := byteAt m 0xE6 * 16 + byteAt m 0xE5 / 16

/-- The 18 fields of a coefficient file are those that an image's bytes give (R80 to R84). -/
def CalDecodedFrom (m : Memory) (c : Cal) : Prop :=
  (c.digT1.toNat : Int) = u16le m 0x88 ∧
  c.digT2.toInt = s16le m 0x8A ∧
  c.digT3.toInt = s16le m 0x8C ∧
  (c.digP1.toNat : Int) = u16le m 0x8E ∧
  c.digP2.toInt = s16le m 0x90 ∧
  c.digP3.toInt = s16le m 0x92 ∧
  c.digP4.toInt = s16le m 0x94 ∧
  c.digP5.toInt = s16le m 0x96 ∧
  c.digP6.toInt = s16le m 0x98 ∧
  c.digP7.toInt = s16le m 0x9A ∧
  c.digP8.toInt = s16le m 0x9C ∧
  c.digP9.toInt = s16le m 0x9E ∧
  (c.digH1.toNat : Int) = byteAt m 0xA1 ∧
  c.digH2.toInt = s16le m 0xE1 ∧
  (c.digH3.toNat : Int) = byteAt m 0xE3 ∧
  c.digH4.toInt = sext 12 (h4raw m) ∧
  c.digH5.toInt = sext 12 (h5raw m) ∧
  c.digH6.toInt = sext 8 (byteAt m 0xE7)

/-- A 20-bit raw code at a: `b0 * 2^12 + b1 * 2^4 + b2[7:4]` (R49). -/
def raw20 (m : Memory) (a : Nat) : Int := byteAt m a * 2 ^ 12 + byteAt m (a + 1) * 2 ^ 4 + byteAt m (a + 2) / 16

/-- `adc_H = b[0xFD] * 2^8 + b[0xFE]` (R50, R120). -/
def raw16 (m : Memory) : Int := byteAt m 0xFD * 2 ^ 8 + byteAt m 0xFE

end Sys2Proof.Pseudocode
end

