-- ==== Sys2Proof/Certificates/Slice0/Obligations.lean ====
section
/-! DEFINITION. The statements for the provers. The words `bit 0` to `bit 5` of STATUS are the fields of spec/10_state.md R36;
integer results are those of Sys2Proof.Pseudocode. -/

open Sys2Proof Sys2Proof.Machine

/-! ## Encoding -/

/-- R73: each example word is the encoding of its text and decodes back to it; the three illegal words decode to nothing. -/
def Obligations.EncodingExamples : Prop :=
  (encode .decodeCal = 0x1000000000000000#64 ∧ decode 0x1000000000000000#64 = .ok .decodeCal) ∧
  (encode (.compT 519888#20) = 0x200000000007EED0#64 ∧ decode 0x200000000007EED0#64 = .ok (.compT 519888#20)) ∧
  (encode (.compP 415148#20) = 0x30000000000655AC#64 ∧ decode 0x30000000000655AC#64 = .ok (.compP 415148#20)) ∧
  (encode (.compH 30000#16) = 0x4000000000007530#64 ∧ decode 0x4000000000007530#64 = .ok (.compH 30000#16)) ∧
  (encode (.setTfine (BitVec.ofInt 32 128422)) = 0x500000000001F5A6#64 ∧
    decode 0x500000000001F5A6#64 = .ok (.setTfine (BitVec.ofInt 32 128422))) ∧
  (encode (.setTfine (BitVec.ofInt 32 (-227131))) = 0x50000000FFFC88C5#64 ∧
    decode 0x50000000FFFC88C5#64 = .ok (.setTfine (BitVec.ofInt 32 (-227131)))) ∧
  (encode .compRaw = 0x6000000000000000#64 ∧ decode 0x6000000000000000#64 = .ok .compRaw) ∧
  ∀ i, decode 0x0000000000000000#64 ≠ .ok i ∧ decode 0x4000000000010000#64 ≠ .ok i ∧
    decode 0x2000000100000000#64 ≠ .ok i

/-- Decoding the word of any command, with any operand its encoding admits, gives the command back. -/
def Obligations.DecodeOfEncode : Prop :=
  ∀ i : Instr, decode (encode i) = .ok i

/-- A word that decodes to a command is that command's one encoding: no bit of a word is dropped. -/
def Obligations.EncodeOfDecode : Prop :=
  ∀ (w : Word64) (i : Instr), decode w = .ok i → encode i = w

/-- R65's match and mask table: a word selects a row exactly when it decodes to a command with the row's mnemonic. -/
def Obligations.DecodeFollowsOpcodeTable : Prop :=
  ∀ (w : Word64) (row : OpcodeRow), row ∈ opcodeTable →
    (rowSelected w row = true ↔ ∃ i, decode w = .ok i ∧ i.mnemonic = row.mnemonic)

/-- R66: a word selects at most one row; a word that selects none is illegal; the illegal words are exactly those listed (OP is
`w / 2^60`, RSV `w / 2^32 mod 2^28`, ARG `w mod 2^32`); an illegal word executes as R127 says. -/
def Obligations.IllegalWordsAreExactlyThese : Prop :=
  ∀ w : Word64,
    (∀ r₁ ∈ opcodeTable, ∀ r₂ ∈ opcodeTable, rowSelected w r₁ = true → rowSelected w r₂ = true → r₁ = r₂) ∧
    ((∀ row ∈ opcodeTable, rowSelected w row = false) ↔ ∃ e, decode w = .error e) ∧
    ((∃ e, decode w = .error e) ↔
      (w.toNat / 2 ^ 60 = 0 ∨ 7 ≤ w.toNat / 2 ^ 60) ∨
      w.toNat / 2 ^ 32 % 2 ^ 28 ≠ 0 ∨
      ((w.toNat / 2 ^ 60 = 2 ∨ w.toNat / 2 ^ 60 = 3) ∧ w.toNat % 2 ^ 32 / 2 ^ 20 ≠ 0) ∨
      (w.toNat / 2 ^ 60 = 4 ∧ w.toNat % 2 ^ 32 / 2 ^ 16 ≠ 0) ∨
      ((w.toNat / 2 ^ 60 = 1 ∨ w.toNat / 2 ^ 60 = 6) ∧ w.toNat % 2 ^ 32 ≠ 0)) ∧
    ((∃ e, decode w = .error e) → ∀ s : State, issueCommand w s = .next { s with status := s.status ||| 0x20#32 })

/-- R64: the operand a command has is its field of ARG, unscaled; the ARG bits it does not use are 0; and an ADC code enters
the 32-bit datapath as a non-negative s32. -/
def Obligations.OperandAssembly : Prop :=
  (∀ w : Word64,
    (∀ adc, decode w = .ok (.compT adc) → adc.toNat = w.toNat % 2 ^ 20 ∧ w.toNat % 2 ^ 32 / 2 ^ 20 = 0) ∧
    (∀ adc, decode w = .ok (.compP adc) → adc.toNat = w.toNat % 2 ^ 20 ∧ w.toNat % 2 ^ 32 / 2 ^ 20 = 0) ∧
    (∀ adc, decode w = .ok (.compH adc) → adc.toNat = w.toNat % 2 ^ 16 ∧ w.toNat % 2 ^ 32 / 2 ^ 16 = 0) ∧
    (∀ tf, decode w = .ok (.setTfine tf) → tf.toInt = Pseudocode.sext 32 ((w.toNat % 2 ^ 32 : Nat) : Int)) ∧
    (decode w = .ok .decodeCal ∨ decode w = .ok .compRaw → w.toNat % 2 ^ 32 = 0)) ∧
  (∀ adc : BitVec 20, (enterU 32 adc).toInt = adc.toNat) ∧
  (∀ adc : BitVec 16, (enterU 32 adc).toInt = adc.toNat)

/-! ## The step -/

/-- When the host's next move presents the word of a command, the step takes the move off the list and is `exec` of that
command; `withFetchWord` places exactly that. -/
def Obligations.StepRunsTheDecodedCommand : Prop :=
  (∀ (s : State) (w : Word64) (rest : List HostMove) (i : Instr),
    s.pending = .command w :: rest → decode w = .ok i → step s = exec i { s with pending := rest }) ∧
  (∀ (s : State) (i : Instr), step (s.withFetchWord 64 (encode i).toNat) = exec i s)

/-- The other moves: an illegal word, a read, a byte supplied, reset, and no move at all (the block waits). MODEL'S CHOICE: the
values `State.reset` gives CAL, T_OUT, P_OUT and H_OUT (log entries 1, 11), and `pending` and `readData` (log entries 2, 3); the word
of a read without a value is a free value, its fault recorded (log entries 6, 16). -/
def Obligations.StepServesEveryMove : Prop :=
  ∀ s : State,
    (s.pending = [] → step s = .next s) ∧
    ∀ (m : HostMove) (rest : List HostMove), s.pending = m :: rest →
      (∀ w, m = .command w → (∀ i, decode w ≠ .ok i) →
        step s = .next { s with pending := rest, status := s.status ||| 0x20#32 }) ∧
      (∀ index w, m = .read index → readPort index s = .ok w →
        step s = .next { s with pending := rest, readData := some w }) ∧
      (∀ index f, m = .read index → readPort index s = .error f →
        step s = .next { s with
          pending := rest, readData := some (Config.unspecifiedWord s.freeDraws),
          modelFaults := s.modelFaults ++ [f], freeDraws := s.freeDraws + 1 }) ∧
      (∀ a b, m = .supply a b → step s = .next { s with pending := rest, image := s.image.writeByte a b }) ∧
      (m = .reset → step s = .next
        { State.reset with
          image := s.image, pending := rest, readData := s.readData, modelFaults := s.modelFaults,
          freeDraws := s.freeDraws })

/-- R57: serving one list of moves and then another is serving the two joined; what comes later has no part in what comes
earlier. -/
def Obligations.MovesAreServedInOrder : Prop :=
  ∀ (ms₁ ms₂ : List HostMove) (s : State),
    runSteps (ms₁.length + ms₂.length) { s with pending := ms₁ ++ ms₂ } =
      match runSteps ms₁.length { s with pending := ms₁ } with
      | .next t => runSteps ms₂.length { t with pending := ms₂ }
      | .fault f => .fault f
      | .refused r => .refused r

/-! ## STATUS and illegal commands -/

/-- R127: an illegal word sets ILL (bit 5) and changes nothing else; ILL stays 1 until reset; a command runs after it as it
would have run before, but for ILL. -/
def Obligations.IllegalCommandSetsOnlyIll : Prop :=
  (∀ (s : State) (w : Word64) (rest : List HostMove),
    s.pending = .command w :: rest → (∀ i, decode w ≠ .ok i) →
      step s = .next { s with pending := rest, status := s.status ||| 0x20#32 }) ∧
  (∀ s t : State, s.status.getLsbD 5 = true → step s = .next t →
    t.status.getLsbD 5 = true ∨ ∃ rest, s.pending = .reset :: rest) ∧
  (∀ (i : Instr) (s : State), exec i { s with status := s.status ||| 0x20#32 } =
    onNext (fun t => { t with status := t.status ||| 0x20#32 }) (exec i s))

/-- R37, with R36's table: which bits of STATUS each command, an illegal word and each other move of the host set; none clears a bit but
reset, which clears all; STATUS is 0 after reset and reads with bits 31:6 zero. -/
def Obligations.StatusBitsAreSetAsTabled : Prop :=
  (∀ (i : Instr) (s t : State), exec i s = .next t →
    t.status = s.status ||| (match i with
      | .decodeCal => 0x01#32
      | .compT _ => 0x06#32
      | .compP _ => 0x08#32
      | .compH _ => 0x10#32
      | .setTfine _ => 0x02#32
      | .compRaw => 0x1E#32)) ∧
  (∀ (w : Word64) (s : State), (∀ i, decode w ≠ .ok i) →
    performMove (.command w) s = .next { s with status := s.status ||| 0x20#32 }) ∧
  (∀ (index : Byte) (s t : State), performMove (.read index) s = .next t → t.status = s.status) ∧
  (∀ (a b : Byte) (s t : State), performMove (.supply a b) s = .next t → t.status = s.status) ∧
  (∀ s t : State, performMove .reset s = .next t → t.status = 0#32) ∧
  State.reset.status = 0#32 ∧
  (∀ s : State, readPort 0x00#8 s = .ok (statusWord s) ∧ (statusWord s).toNat = s.status.toNat % 64)

/-! ## The read port -/

/-- R38: the word of every index, for a register that has a value: STATUS, the outputs and T_FINE as their bits, an unsigned
coefficient zero-extended and a signed one as the 32-bit pattern of its value, a reserved index 0. -/
def Obligations.ReadPortMap : Prop :=
  ∀ s : State,
    readPort 0x00#8 s = .ok (s.status &&& 0x3F#32) ∧
    (s.status.getLsbD 2 = true → readPort 0x01#8 s = .ok s.tOut) ∧
    (s.status.getLsbD 3 = true → readPort 0x02#8 s = .ok s.pOut) ∧
    (s.status.getLsbD 4 = true → readPort 0x03#8 s = .ok s.hOut) ∧
    readPort 0x04#8 s = .ok s.tFine ∧
    (∀ index : Byte, (0x05 ≤ index.toNat ∧ index.toNat ≤ 0x0F) ∨ 0x22 ≤ index.toNat →
      readPort index s = .ok 0x00000000#32) ∧
    (s.status.getLsbD 0 = true →
      readPort 0x10#8 s = .ok (BitVec.ofNat 32 s.cal.digT1.toNat) ∧
      readPort 0x11#8 s = .ok (BitVec.ofInt 32 s.cal.digT2.toInt) ∧
      readPort 0x12#8 s = .ok (BitVec.ofInt 32 s.cal.digT3.toInt) ∧
      readPort 0x13#8 s = .ok (BitVec.ofNat 32 s.cal.digP1.toNat) ∧
      readPort 0x14#8 s = .ok (BitVec.ofInt 32 s.cal.digP2.toInt) ∧
      readPort 0x15#8 s = .ok (BitVec.ofInt 32 s.cal.digP3.toInt) ∧
      readPort 0x16#8 s = .ok (BitVec.ofInt 32 s.cal.digP4.toInt) ∧
      readPort 0x17#8 s = .ok (BitVec.ofInt 32 s.cal.digP5.toInt) ∧
      readPort 0x18#8 s = .ok (BitVec.ofInt 32 s.cal.digP6.toInt) ∧
      readPort 0x19#8 s = .ok (BitVec.ofInt 32 s.cal.digP7.toInt) ∧
      readPort 0x1A#8 s = .ok (BitVec.ofInt 32 s.cal.digP8.toInt) ∧
      readPort 0x1B#8 s = .ok (BitVec.ofInt 32 s.cal.digP9.toInt) ∧
      readPort 0x1C#8 s = .ok (BitVec.ofNat 32 s.cal.digH1.toNat) ∧
      readPort 0x1D#8 s = .ok (BitVec.ofInt 32 s.cal.digH2.toInt) ∧
      readPort 0x1E#8 s = .ok (BitVec.ofNat 32 s.cal.digH3.toNat) ∧
      readPort 0x1F#8 s = .ok (BitVec.ofInt 32 s.cal.digH4.toInt) ∧
      readPort 0x20#8 s = .ok (BitVec.ofInt 32 s.cal.digH5.toInt) ∧
      readPort 0x21#8 s = .ok (BitVec.ofInt 32 s.cal.digH6.toInt))

/-- R22: a read answers a word and leaves every register and the image as they were; only the word on the port is new, and, for a
register without a value, the model's fault record. -/
def Obligations.ReadHasNoSideEffect : Prop :=
  ∀ (s : State) (index : Byte) (rest : List HostMove), s.pending = .read index :: rest →
    ∃ (w : BitVec 32) (t : State), step s = .next t ∧
      t = { s with pending := rest, readData := some w, modelFaults := t.modelFaults, freeDraws := t.freeDraws } ∧
      ∀ v, readPort index s = .ok v → w = v ∧ t.modelFaults = s.modelFaults ∧ t.freeDraws = s.freeDraws

/-- R39: a read of a reserved index returns 0 and changes nothing, ILL included. -/
def Obligations.ReservedIndexReadsZero : Prop :=
  ∀ (s : State) (index : Byte) (rest : List HostMove), s.pending = .read index :: rest →
    (0x05 ≤ index.toNat ∧ index.toNat ≤ 0x0F) ∨ 0x22 ≤ index.toNat →
      step s = .next { s with pending := rest, readData := some 0x00000000#32 }

/-- R40: a read of an output or a coefficient whose valid bit is 0 has no value: the model records the fault with its index and
no register changes; STATUS and T_FINE always have a value. MODEL'S CHOICE: the read is answered all the same (log entry 6), with a free
value that the count of them moves on from (log entry 16). -/
def Obligations.UnwrittenReadFaults : Prop :=
  ∀ (s : State) (index : Byte) (rest : List HostMove), s.pending = .read index :: rest →
    ((index.toNat = 0x01 ∧ s.status.getLsbD 2 = false) ∨
      (index.toNat = 0x02 ∧ s.status.getLsbD 3 = false) ∨
      (index.toNat = 0x03 ∧ s.status.getLsbD 4 = false) ∨
      ((0x10 ≤ index.toNat ∧ index.toNat ≤ 0x21) ∧ s.status.getLsbD 0 = false) →
        readPort index s = .error (.unwrittenRead index) ∧
        step s = .next { s with
          pending := rest, readData := some (Config.unspecifiedWord s.freeDraws),
          modelFaults := s.modelFaults ++ [.unwrittenRead index], freeDraws := s.freeDraws + 1 }) ∧
    (index.toNat = 0x00 ∨ index.toNat = 0x04 →
      ∃ w, readPort index s = .ok w ∧ step s = .next { s with pending := rest, readData := some w })

/-! ## DECODE_CAL -/

/-- R75, R80 to R85, R87: DECODE_CAL completes whatever STATUS holds, writes the 18 fields that the image's bytes give, sets
CAL_VALID, and changes nothing else. -/
def Obligations.DecodeCalWritesEveryField : Prop :=
  encode .decodeCal = 0x1000000000000000#64 ∧
  ∀ s : State, ∃ c : Cal,
    exec .decodeCal s = .next { s with cal := c, status := s.status ||| 0x01#32 } ∧
    Pseudocode.CalDecodedFrom s.image c

/-- R88: the corner cases of DECODE_CAL. -/
def Obligations.DecodeCalCornerCases : Prop :=
  ∀ s : State, ∃ t : State, exec .decodeCal s = .next t ∧
    ((∀ a ∈ bytesReadBy .decodeCal, Pseudocode.byteAt s.image a = 0x00) →
      t.cal = ⟨0#16, 0#16, 0#16, 0#16, 0#16, 0#16, 0#16, 0#16, 0#16, 0#16, 0#16, 0#16, 0#8, 0#16, 0#8, 0#12, 0#12, 0#8⟩ ∧
      ∀ adc, ∃ u, exec (.compP adc) t = .next u ∧ u.pOut = 0#32) ∧
    ((∀ a ∈ bytesReadBy .decodeCal, Pseudocode.byteAt s.image a = 0xFF) →
      t.cal.digT1.toNat = 65535 ∧ t.cal.digP1.toNat = 65535 ∧ t.cal.digH1.toNat = 255 ∧ t.cal.digH3.toNat = 255 ∧
      t.cal.digT2.toInt = -1 ∧ t.cal.digT3.toInt = -1 ∧ t.cal.digP2.toInt = -1 ∧ t.cal.digP3.toInt = -1 ∧
      t.cal.digP4.toInt = -1 ∧ t.cal.digP5.toInt = -1 ∧ t.cal.digP6.toInt = -1 ∧ t.cal.digP7.toInt = -1 ∧
      t.cal.digP8.toInt = -1 ∧ t.cal.digP9.toInt = -1 ∧ t.cal.digH2.toInt = -1 ∧ t.cal.digH4.toInt = -1 ∧
      t.cal.digH5.toInt = -1 ∧ t.cal.digH6.toInt = -1) ∧
    (Pseudocode.byteAt s.image 0xE4 = 0x80 → Pseudocode.byteAt s.image 0xE5 = 0x00 →
      Pseudocode.byteAt s.image 0xE6 = 0x80 → t.cal.digH4.toInt = -2048 ∧ t.cal.digH5.toInt = -2048) ∧
    (Pseudocode.byteAt s.image 0xE4 = 0x7F → Pseudocode.byteAt s.image 0xE5 = 0xFF →
      Pseudocode.byteAt s.image 0xE6 = 0x7F → t.cal.digH4.toInt = 2047 ∧ t.cal.digH5.toInt = 2047) ∧
    (∀ m : Memory, (∀ a ∈ bytesReadBy .decodeCal, Pseudocode.byteAt m a = Pseudocode.byteAt s.image a) →
      ∃ u, exec .decodeCal { s with image := m } = .next u ∧ u.cal = t.cal)

/-- R89: the source's worked example of the packed fields. -/
def Obligations.PackedHumidityExample : Prop :=
  ∀ s : State, Pseudocode.byteAt s.image 0xE4 = 0x12 → Pseudocode.byteAt s.image 0xE5 = 0x3A →
    Pseudocode.byteAt s.image 0xE6 = 0x04 →
      Pseudocode.h4raw s.image = 0x12A ∧ Pseudocode.h5raw s.image = 0x43 ∧
      ∃ t, exec .decodeCal s = .next t ∧ t.cal.digH4.toInt = 298 ∧ t.cal.digH5.toInt = 67

/-- R31: DECODE_CAL replaces all 18 fields, none of them kept; no other command, and no move of the host but reset, writes
one. -/
def Obligations.OnlyDecodeCalWritesCal : Prop :=
  (∀ (s : State) (c : Cal), ∃ t, exec .decodeCal s = .next t ∧ exec .decodeCal { s with cal := c } = .next t) ∧
  (∀ (i : Instr) (s t : State), i ≠ .decodeCal → exec i s = .next t → t.cal = s.cal) ∧
  (∀ s t : State, step s = .next t → t.cal = s.cal ∨
    (∃ w rest, s.pending = .command w :: rest ∧ decode w = .ok .decodeCal) ∨ ∃ rest, s.pending = .reset :: rest)

/-! ## COMP_T -/

/-- R93, R95: with CAL_VALID 1, COMP_T completes, T_FINE and T_OUT are what the rule's pseudocode gives, TFINE_SET and T_VALID
are set, and nothing else changes. MODEL'S CHOICE: with CAL_VALID 0 it completes too, the model fault F_UNINIT_CAL is recorded (log
entry 5), and the results are those of a coefficient file whose value is free (log entry 16). -/
def Obligations.CompTComputesTemperature : Prop :=
  (∀ adc : BitVec 20, (encode (.compT adc)).toNat = 0x2 * 2 ^ 60 + adc.toNat) ∧
  (∀ (adc : BitVec 20) (s : State), s.status.getLsbD 0 = true → ∃ tf t : BitVec 32,
    exec (.compT adc) s = .next { s with tFine := tf, tOut := t, status := s.status ||| 0x06#32 } ∧
    tf.toInt = (Pseudocode.temperature s.cal adc.toNat).1 ∧ t.toInt = (Pseudocode.temperature s.cal adc.toNat).2) ∧
  ∀ (adc : BitVec 20) (s : State), s.status.getLsbD 0 = false → ∃ (c : Cal) (tf t : BitVec 32),
    exec (.compT adc) s = .next { s with
      tFine := tf, tOut := t, status := s.status ||| 0x06#32,
      modelFaults := s.modelFaults ++ [.uninitCal], freeDraws := s.freeDraws + 1 } ∧
    tf.toInt = (Pseudocode.temperature c adc.toNat).1 ∧ t.toInt = (Pseudocode.temperature c adc.toNat).2

/-- R98: the ranges of COMP_T's first shifts, and its result in closed form whenever the scaling does not wrap. -/
def Obligations.CompTScaling : Prop :=
  (∀ adc : BitVec 20, (asrW (enterU 32 adc) 3).toInt ∈ Set.Icc (0 : Int) 131071 ∧
    (asrW (enterU 32 adc) 4).toInt ∈ Set.Icc (0 : Int) 65535) ∧
  (∀ (adc : BitVec 20) (s : State), s.status.getLsbD 0 = true → ∃ t, exec (.compT adc) s = .next t ∧
    (-(2 ^ 31) ≤ 5 * t.tFine.toInt + 128 → 5 * t.tFine.toInt + 128 < 2 ^ 31 →
      t.tOut.toInt = Int.fdiv (5 * t.tFine.toInt + 128) 256) ∧
    (|t.tFine.toInt| ≤ 429496703 → t.tOut.toInt = Int.fdiv (5 * t.tFine.toInt + 128) 256))

/-- spec/95_test_vectors.md L2.3 (R96, R97, R99): COMP_T on CAL-A, below zero, at the ends of the code's range, and with both
products wrapping. -/
def Obligations.CompTVectors : Prop :=
  ∀ s : State, s.status.getLsbD 0 = true →
    (s.cal = calA →
      exec (.compT 519888#20) s =
        .next { s with tFine := BitVec.ofInt 32 128422, tOut := BitVec.ofInt 32 2508, status := s.status ||| 0x06#32 } ∧
      exec (.compT 0#20) s =
        .next { s with
          tFine := BitVec.ofInt 32 (-721301), tOut := BitVec.ofInt 32 (-14088),
          status := s.status ||| 0x06#32 } ∧
      exec (.compT 0x80000#20) s =
        .next { s with tFine := BitVec.ofInt 32 135479, tOut := BitVec.ofInt 32 2646, status := s.status ||| 0x06#32 } ∧
      exec (.compT 0xFFFFF#20) s =
        .next { s with tFine := BitVec.ofInt 32 960246, tOut := BitVec.ofInt 32 18755, status := s.status ||| 0x06#32 } ∧
      exec (.compT 400000#20) s =
        .next { s with tFine := BitVec.ofInt 32 (-64736), tOut := BitVec.ofInt 32 (-1264), status := s.status ||| 0x06#32 } ∧
      exec (.compT 300000#20) s =
        .next { s with
          tFine := BitVec.ofInt 32 (-227131), tOut := BitVec.ofInt 32 (-4436),
          status := s.status ||| 0x06#32 }) ∧
    (s.cal = { calA with digT1 := 0#16 } →
      exec (.compT 0xFFFFF#20) s =
        .next { s with
          tFine := BitVec.ofInt 32 (-405324), tOut := BitVec.ofInt 32 (-7916),
          status := s.status ||| 0x06#32 } ∧
      exec (.compT 0#20) s = .next { s with tFine := 0#32, tOut := 0#32, status := s.status ||| 0x06#32 }) ∧
    (s.cal.digT1.toNat = 65535 → s.cal.digT2.toInt = 32767 → s.cal.digT3.toInt = 32767 →
      exec (.compT 0#20) s = .next { s with tFine := 31#32, tOut := 1#32, status := s.status ||| 0x06#32 } ∧
      exec (.compT 0xFFFFF#20) s = .next { s with tFine := 15#32, tOut := 0#32, status := s.status ||| 0x06#32 })

/-! ## COMP_P -/

/-- R100 to R105, R107: with CAL_VALID 1, COMP_P completes, P_OUT is the low 32 bits of what the rules' stages give (the
sentinel among them), P_VALID is set, and nothing else changes. MODEL'S CHOICE: with CAL_VALID 0 it completes too, the model fault
F_UNINIT_CAL is recorded (log entry 5), and the result is that of a coefficient file whose value is free (log entry 16). -/
def Obligations.CompPComputesPressure : Prop :=
  (∀ adc : BitVec 20, (encode (.compP adc)).toNat = 0x3 * 2 ^ 60 + adc.toNat) ∧
  (∀ (adc : BitVec 20) (s : State), s.status.getLsbD 0 = true → ∃ p : BitVec 32,
    exec (.compP adc) s = .next { s with pOut := p, status := s.status ||| 0x08#32 } ∧
    (p.toNat : Int) = Pseudocode.truncU32 (Pseudocode.pressure s.cal s.tFine.toInt adc.toNat)) ∧
  ∀ (adc : BitVec 20) (s : State), s.status.getLsbD 0 = false → ∃ (c : Cal) (p : BitVec 32),
    exec (.compP adc) s = .next { s with
      pOut := p, status := s.status ||| 0x08#32,
      modelFaults := s.modelFaults ++ [.uninitCal], freeDraws := s.freeDraws + 1 } ∧
    (p.toNat : Int) = Pseudocode.truncU32 (Pseudocode.pressure c s.tFine.toInt adc.toNat)

/-- R103: a denominator that is 0 gives the result 0, and the command completes as always; dig_P1 = 0 always makes the
denominator 0. -/
def Obligations.ZeroDenominatorGivesSentinel : Prop :=
  ∀ (adc : BitVec 20) (s : State), s.status.getLsbD 0 = true →
    (Pseudocode.pressureVar1 s.cal.digP1.toNat s.cal.digP2.toInt s.cal.digP3.toInt s.tFine.toInt = 0 →
      exec (.compP adc) s = .next { s with pOut := 0#32, status := s.status ||| 0x08#32 }) ∧
    (s.cal.digP1 = 0#16 →
      Pseudocode.pressureVar1 s.cal.digP1.toNat s.cal.digP2.toInt s.cal.digP3.toInt s.tFine.toInt = 0)

/-- spec/95_test_vectors.md L2.4 (R108, R109): COMP_P on CAL-A: the published example, the ends of the code's range, the
truncating division of a negative dividend, the extreme T_FINE. -/
def Obligations.CompPVectors : Prop :=
  ∀ s : State, s.status.getLsbD 0 = true → s.cal = calA →
    ∀ v ∈ ([(128422, 415148, 25767233), (128422, 0, 44339071), (128422, 0xFFFFF, 4293269792),
        (128422, 300000, 30873084), (0, 415148, 24786192), (-227131, 415148, 23101007),
        (2147483647, 415148, 30349063), (-2147483648, 415148, 3970895809)] : List (Int × Nat × Nat)),
      s.tFine.toInt = v.1 → exec (.compP (BitVec.ofNat 20 v.2.1)) s =
        .next { s with pOut := BitVec.ofNat 32 v.2.2, status := s.status ||| 0x08#32 }

/-! ## COMP_H -/

/-- R110 to R115: with CAL_VALID 1, COMP_H completes, H_OUT is what the rules' stages, clamp and shift give, which is
in [0, 102400], H_VALID is set, and nothing else changes. MODEL'S CHOICE: with CAL_VALID 0 it completes too, the model fault
F_UNINIT_CAL is recorded (log entry 5), and the result is that of a coefficient file whose value is free (log entry 16). -/
def Obligations.CompHComputesHumidity : Prop :=
  (∀ adc : BitVec 16, (encode (.compH adc)).toNat = 0x4 * 2 ^ 60 + adc.toNat) ∧
  (∀ (adc : BitVec 16) (s : State), s.status.getLsbD 0 = true → ∃ h : BitVec 32,
    exec (.compH adc) s = .next { s with hOut := h, status := s.status ||| 0x10#32 } ∧
    (h.toNat : Int) = Pseudocode.humidity s.cal s.tFine.toInt adc.toNat ∧ h.toNat ≤ 102400) ∧
  ∀ (adc : BitVec 16) (s : State), s.status.getLsbD 0 = false → ∃ (c : Cal) (h : BitVec 32),
    exec (.compH adc) s = .next { s with
      hOut := h, status := s.status ||| 0x10#32,
      modelFaults := s.modelFaults ++ [.uninitCal], freeDraws := s.freeDraws + 1 } ∧
    (h.toNat : Int) = Pseudocode.humidity c s.tFine.toInt adc.toNat

/-- R114, R115: H_OUT is in [0, 102400] after COMP_H and after COMP_RAW, for every coefficient set, T_FINE and code, whatever wraps
earlier. MODEL'S CHOICE: with CAL_VALID 0 both complete, with a free coefficient file (log entries 5, 16). -/
def Obligations.HumidityIsAlwaysInRange : Prop :=
  ∀ s : State,
    (∀ adc, ∃ t, exec (.compH adc) s = .next t ∧ t.hOut.toNat ≤ 102400) ∧
    (∃ t, exec .compRaw s = .next t ∧ t.hOut.toNat ≤ 102400)

/-- spec/95_test_vectors.md L2.5 (R116, R117): COMP_H on CAL-A: the worked example, both clamps, the extreme T_FINE, and the
sign of dig_H4 and dig_H5. -/
def Obligations.CompHVectors : Prop :=
  ∀ s : State, s.status.getLsbD 0 = true →
    (s.cal = calA →
      ∀ v ∈ ([(128422, 30000, 56317), (128422, 0, 0), (128422, 65535, 102400), (128422, 20000, 0),
          (128422, 25000, 27726), (0, 30000, 55289), (0, 25000, 28300), (-227131, 25000, 28701),
          (2147483647, 30000, 55288), (-2147483648, 30000, 55289)] : List (Int × Nat × Nat)),
        s.tFine.toInt = v.1 → exec (.compH (BitVec.ofNat 16 v.2.1)) s =
          .next { s with hOut := BitVec.ofNat 32 v.2.2, status := s.status ||| 0x10#32 }) ∧
    (s.cal = { calA with digH4 := BitVec.ofInt 12 (-1590), digH5 := BitVec.ofInt 12 (-203) } →
      s.tFine.toInt = 128422 →
        exec (.compH 30000#16) s = .next { s with hOut := 102400#32, status := s.status ||| 0x10#32 })

/-! ## The arithmetic -/

/-- R12, R13: at widths 32 and 64 each primitive of the datapath is the integer operation, wrapped; the right shift is the
floor; the division truncates toward zero. -/
def Obligations.DatapathPrimitives : Prop :=
  ∀ n : Nat, n = 32 ∨ n = 64 →
    (∀ a b : BitVec n,
      (addW a b).toInt = Pseudocode.add n a.toInt b.toInt ∧
      (subW a b).toInt = Pseudocode.sub n a.toInt b.toInt ∧
      (mulW a b).toInt = Pseudocode.mul n a.toInt b.toInt) ∧
    (∀ (a : BitVec n) (k : Nat), k < n →
      (shlW a k).toInt = Pseudocode.shl n a.toInt k ∧
      (asrW a k).toInt = Pseudocode.asr a.toInt k) ∧
    (∀ v lo hi : BitVec n, (clampW v lo hi).toInt = Pseudocode.clamp v.toInt lo.toInt hi.toInt) ∧
    (∀ a b : BitVec 64, b ≠ 0#64 → (tdiv64 a b).toInt = Pseudocode.tdiv64 a.toInt b.toInt)

/-! ## SET_TFINE and COMP_RAW -/

/-- R118: SET_TFINE completes in every state, writes T_FINE, sets TFINE_SET, and changes nothing else. -/
def Obligations.SetTfineLoadsTFine : Prop :=
  ∀ (tf : BitVec 32) (s : State),
    (encode (.setTfine tf)).toNat = 0x5 * 2 ^ 60 + tf.toNat ∧
    exec (.setTfine tf) s = .next { s with tFine := tf, status := s.status ||| 0x02#32 }

/-- R49, R50, R120: the raw codes are the stated sums of the bytes of the image. -/
def Obligations.RawSampleAssembly : Prop :=
  ∀ m : Memory,
    ((rawAdcP m).toNat : Int) = Pseudocode.raw20 m 0xF7 ∧
    ((rawAdcT m).toNat : Int) = Pseudocode.raw20 m 0xFA ∧
    ((rawAdcH m).toNat : Int) = Pseudocode.raw16 m

/-- R121, R122: with CAL_VALID 1, COMP_RAW completes, and its end state is that of COMP_T, COMP_P and COMP_H issued in that
order with the codes the raw bytes give: it writes T_FINE, the three outputs and four bits of STATUS, and nothing else. MODEL'S
CHOICE: with CAL_VALID 0 it completes too, the model fault F_UNINIT_CAL is recorded once (log entry 5), the results are those of one
coefficient file whose value is free (log entry 16), and the image is still read (log entry 17). -/
def Obligations.CompRawIsTheThreeCompensations : Prop :=
  encode .compRaw = 0x6000000000000000#64 ∧
  (∀ s : State, s.status.getLsbD 0 = true →
    ∃ (adcT adcP : BitVec 20) (adcH : BitVec 16) (t₁ t₂ t₃ : State),
      (adcT.toNat : Int) = Pseudocode.raw20 s.image 0xFA ∧
      (adcP.toNat : Int) = Pseudocode.raw20 s.image 0xF7 ∧
      (adcH.toNat : Int) = Pseudocode.raw16 s.image ∧
      exec (.compT adcT) s = .next t₁ ∧ exec (.compP adcP) t₁ = .next t₂ ∧ exec (.compH adcH) t₂ = .next t₃ ∧
      exec .compRaw s = .next t₃ ∧
      t₃ = { s with tFine := t₁.tFine, tOut := t₁.tOut, pOut := t₂.pOut, hOut := t₃.hOut,
                    status := s.status ||| 0x1E#32 }) ∧
  ∀ s : State, s.status.getLsbD 0 = false → ∃ (c : Cal) (tf t p h : BitVec 32),
    exec .compRaw s = .next { s with
      tFine := tf, tOut := t, pOut := p, hOut := h, status := s.status ||| 0x1E#32,
      modelFaults := s.modelFaults ++ [.uninitCal], freeDraws := s.freeDraws + 1 } ∧
    tf.toInt = (Pseudocode.temperature c (Pseudocode.raw20 s.image 0xFA)).1 ∧
    t.toInt = (Pseudocode.temperature c (Pseudocode.raw20 s.image 0xFA)).2 ∧
    (p.toNat : Int) = Pseudocode.truncU32 (Pseudocode.pressure c tf.toInt (Pseudocode.raw20 s.image 0xF7)) ∧
    (h.toNat : Int) = Pseudocode.humidity c tf.toInt (Pseudocode.raw16 s.image)

/-- R123: the corner cases of COMP_RAW: the low nibbles of 0xF9 and 0xFC, raw bytes all 0x00 and all 0xFF, and dig_P1 = 0. -/
def Obligations.CompRawCornerCases : Prop :=
  ∀ s : State, s.status.getLsbD 0 = true →
    (∀ m : Memory,
      (∀ a ∈ [0xF7, 0xF8, 0xFA, 0xFB, 0xFD, 0xFE], Pseudocode.byteAt m a = Pseudocode.byteAt s.image a) →
      (∀ a ∈ [0xF9, 0xFC], Pseudocode.byteAt m a / 16 = Pseudocode.byteAt s.image a / 16) →
        ∃ t, exec .compRaw s = .next t ∧ exec .compRaw { s with image := m } = .next { t with image := m }) ∧
    ((∀ a ∈ bytesReadBy .compRaw, Pseudocode.byteAt s.image a = 0x00) →
      rawAdcT s.image = 0#20 ∧ rawAdcP s.image = 0#20 ∧ rawAdcH s.image = 0#16) ∧
    ((∀ a ∈ bytesReadBy .compRaw, Pseudocode.byteAt s.image a = 0xFF) →
      rawAdcT s.image = 0xFFFFF#20 ∧ rawAdcP s.image = 0xFFFFF#20 ∧ rawAdcH s.image = 0xFFFF#16) ∧
    (s.cal.digP1 = 0#16 → ∃ t u v, exec .compRaw s = .next t ∧ t.pOut = 0#32 ∧
      exec (.compT (rawAdcT s.image)) s = .next u ∧ t.tOut = u.tOut ∧
      exec (.compH (rawAdcH s.image)) u = .next v ∧ t.hOut = v.hOut)

/-- R124: the worked example of COMP_RAW, with CAL-A and the RAW-A bytes. -/
def Obligations.CompRawExample : Prop :=
  ∀ s : State, s.status.getLsbD 0 = true → s.cal = calA →
    Pseudocode.byteAt s.image 0xF7 = 0x65 → Pseudocode.byteAt s.image 0xF8 = 0x5A →
    Pseudocode.byteAt s.image 0xF9 = 0xC5 → Pseudocode.byteAt s.image 0xFA = 0x7E →
    Pseudocode.byteAt s.image 0xFB = 0xED → Pseudocode.byteAt s.image 0xFC = 0x0F →
    Pseudocode.byteAt s.image 0xFD = 0x75 → Pseudocode.byteAt s.image 0xFE = 0x30 →
      rawAdcP s.image = 415148#20 ∧ rawAdcT s.image = 519888#20 ∧ rawAdcH s.image = 30000#16 ∧
      exec .compRaw s = .next { s with
        tFine := 128422#32, tOut := 2508#32, pOut := 25767233#32, hOut := 56317#32, status := s.status ||| 0x1E#32 }

/-! ## Which command needs what, and what depends on what -/

/-- R92: with CAL_VALID 0 the four commands that use the coefficients record F_UNINIT_CAL and have no result a claim can rest on.
MODEL'S CHOICE: they complete (log entry 5); what they write is what they would write with some coefficient file, whose value is free
(log entry 16), COMP_RAW's from the image's bytes (log entry 17); CAL and CAL_VALID stay. -/
def Obligations.UncalibratedUseFaults : Prop :=
  ∀ s : State, s.status.getLsbD 0 = false → ∃ c : Cal, ∀ i : Instr,
    i = .compRaw ∨ (∃ adc, i = .compT adc) ∨ (∃ adc, i = .compP adc) ∨ (∃ adc, i = .compH adc) →
      exec i s = onNext
        (fun t => { t with
          cal := s.cal, status := t.status &&& 0xFFFFFFFE#32,
          modelFaults := s.modelFaults ++ [.uninitCal], freeDraws := s.freeDraws + 1 })
        (exec i { s with cal := c, status := s.status ||| 0x01#32 })

/-- R126, with R127 and R131: the complete list of events. Every step completes (R125, R129; MODEL'S CHOICE where a model fault is
recorded: log entries 5, 6). ILL is 1 after it exactly when it was 1 and the step served no reset, or
the step served an illegal word, which nothing else records. The fault record grows by at most one fault, and by F_UNINIT_CAL or
F_UNWRITTEN_READ (with the index) exactly when the table says. And the codes. -/
def Obligations.EventsAreExactlyThese : Prop :=
  (∀ s : State, ∃ t : State, step s = .next t ∧
    (t.status.getLsbD 5 = true ↔
      (s.status.getLsbD 5 = true ∧ ∀ rest, s.pending ≠ .reset :: rest) ∨
      ∃ w rest, s.pending = .command w :: rest ∧ ∀ i, decode w ≠ .ok i) ∧
    (∀ (w : Word64) (rest : List HostMove), s.pending = .command w :: rest → (∀ i, decode w ≠ .ok i) →
      t = { s with pending := rest, status := s.status ||| 0x20#32 }) ∧
    (t.modelFaults = s.modelFaults ∨ ∃ f, t.modelFaults = s.modelFaults ++ [f]) ∧
    (∀ f : ModelFault, t.modelFaults = s.modelFaults ++ [f] ↔
      (f = .uninitCal ∧ s.status.getLsbD 0 = false ∧
        ∃ w rest i, s.pending = .command w :: rest ∧ decode w = .ok i ∧
          (i = .compRaw ∨ (∃ adc, i = .compT adc) ∨ (∃ adc, i = .compP adc) ∨ ∃ adc, i = .compH adc)) ∨
      (∃ index rest, f = .unwrittenRead index ∧ s.pending = .read index :: rest ∧
        ((index.toNat = 0x01 ∧ s.status.getLsbD 2 = false) ∨
          (index.toNat = 0x02 ∧ s.status.getLsbD 3 = false) ∨
          (index.toNat = 0x03 ∧ s.status.getLsbD 4 = false) ∨
          ((0x10 ≤ index.toNat ∧ index.toNat ≤ 0x21) ∧ s.status.getLsbD 0 = false))))) ∧
  eventCode .illegalCommand = 1 ∧ eventCode (.modelFault .uninitCal) = 0x10 ∧
  ∀ index, eventCode (.modelFault (.unwrittenRead index)) = 0x11

/-- R125, R36: every legal command completes and writes its results, in every state: the step serves it, the registers it writes
hold what its rules give on integers, and the STATUS fields R36 says it sets are 1. The coefficients are CAL with CAL_VALID 1. MODEL'S
CHOICE: with CAL_VALID 0 they are some file (log entries 5, 16), and COMP_RAW still reads the image (log entry 17). -/
def Obligations.EveryLegalCommandCompletes : Prop :=
  ∀ (s : State) (w : Word64) (rest : List HostMove) (i : Instr), s.pending = .command w :: rest → decode w = .ok i →
    ∃ (c : Cal) (t : State), step s = .next t ∧ t.pending = rest ∧
      (∀ f ∈ fieldsSetBy i, fieldIsSet t.status f = true) ∧
      (s.status.getLsbD 0 = true → c = s.cal) ∧
      match i with
      | .decodeCal => Pseudocode.CalDecodedFrom s.image t.cal
      | .compT adc => (t.tFine.toInt, t.tOut.toInt) = Pseudocode.temperature c adc.toNat
      | .compP adc => (t.pOut.toNat : Int) = Pseudocode.truncU32 (Pseudocode.pressure c s.tFine.toInt adc.toNat)
      | .compH adc => (t.hOut.toNat : Int) = Pseudocode.humidity c s.tFine.toInt adc.toNat
      | .setTfine tf => t.tFine = tf
      | .compRaw =>
        (t.tFine.toInt, t.tOut.toInt) = Pseudocode.temperature c (Pseudocode.raw20 s.image 0xFA) ∧
        (t.pOut.toNat : Int) =
          Pseudocode.truncU32 (Pseudocode.pressure c t.tFine.toInt (Pseudocode.raw20 s.image 0xF7)) ∧
        (t.hOut.toNat : Int) = Pseudocode.humidity c t.tFine.toInt (Pseudocode.raw16 s.image)

/-- No event stops the block, and no model fault is ever cleared: every run of every length completes, and what the fault record
held it still holds. MODEL'S CHOICE: that a command or a read goes on past its model fault (log entries 5, 6). -/
def Obligations.RunsCompleteAndKeepTheFaultRecord : Prop :=
  ∀ (n : Nat) (s : State), ∃ t : State, runSteps n s = .next t ∧ ∃ fs, t.modelFaults = s.modelFaults ++ fs

/-- Each register has only the writers its rule names; no command changes the image, the host's moves or the port's last
answer. -/
def Obligations.EachRegisterHasItsWriters : Prop :=
  ∀ (i : Instr) (s t : State), exec i s = .next t →
    ((∀ adc, i ≠ .compT adc) → (∀ tf, i ≠ .setTfine tf) → i ≠ .compRaw → t.tFine = s.tFine) ∧
    ((∀ adc, i ≠ .compT adc) → i ≠ .compRaw → t.tOut = s.tOut) ∧
    ((∀ adc, i ≠ .compP adc) → i ≠ .compRaw → t.pOut = s.pOut) ∧
    ((∀ adc, i ≠ .compH adc) → i ≠ .compRaw → t.hOut = s.hOut) ∧
    t.image = s.image ∧ t.pending = s.pending ∧ t.readData = s.readData

/-- R42: for the same CAL, T_FINE and argument (and CAL_VALID 1) a compensation command writes the same values, whatever else
differs; and COMP_T issued twice gives the same pair. -/
def Obligations.CompensationIsDeterminedByItsInputs : Prop :=
  (∀ s u : State, s.cal = u.cal → s.tFine = u.tFine → s.status.getLsbD 0 = true → u.status.getLsbD 0 = true →
    (∀ adc, ∃ s' u', exec (.compT adc) s = .next s' ∧ exec (.compT adc) u = .next u' ∧
      s'.tFine = u'.tFine ∧ s'.tOut = u'.tOut) ∧
    (∀ adc, ∃ s' u', exec (.compP adc) s = .next s' ∧ exec (.compP adc) u = .next u' ∧ s'.pOut = u'.pOut) ∧
    (∀ adc, ∃ s' u', exec (.compH adc) s = .next s' ∧ exec (.compH adc) u = .next u' ∧ s'.hOut = u'.hOut)) ∧
  (∀ (s : State) (adc : BitVec 20), s.status.getLsbD 0 = true →
    ∃ t, exec (.compT adc) s = .next t ∧ exec (.compT adc) t = .next t)

/-- R45, R47: a command's outcome depends on the image only through the bytes R46 says it reads; a byte at any other address
has no effect on any command. -/
def Obligations.UnreadBytesHaveNoEffect : Prop :=
  (∀ (i : Instr) (s : State) (m : Memory),
    (∀ a ∈ bytesReadBy i, Pseudocode.byteAt m a = Pseudocode.byteAt s.image a) →
      exec i { s with image := m } = onNext (fun t => { t with image := m }) (exec i s)) ∧
  (∀ (i : Instr) (s : State) (a b : Byte), s.image.wf = true →
    a.toNat ∉ bytesReadBy .decodeCal → a.toNat ∉ bytesReadBy .compRaw →
      exec i (supplyByte a b s) = onNext (supplyByte a b) (exec i s))

/-- A byte the host has supplied reads back, every other byte reads as before, and the image keeps its canonical form (the
model's own, log entry 4). -/
def Obligations.SuppliedByteReadsBack : Prop :=
  ∀ (s : State) (a b : Byte) (rest : List HostMove), s.pending = .supply a b :: rest → s.image.wf = true →
    ∃ t, step s = .next t ∧ t = { s with pending := rest, image := t.image } ∧ t.image.wf = true ∧
      ∀ x : Byte, t.image.readByte x = if x = a then b else s.image.readByte x

/-- R151: COMP_T leaves P_OUT and H_OUT, and DECODE_CAL every output and T_FINE, as earlier commands left them. MODEL'S CHOICE: COMP_T
completes with CAL_VALID 0 as well (log entry 5). -/
def Obligations.StaleResultsStay : Prop :=
  (∀ (adc : BitVec 20) (s : State),
    ∃ t, exec (.compT adc) s = .next t ∧ t.pOut = s.pOut ∧ t.hOut = s.hOut) ∧
  (∀ s : State, ∃ t, exec .decodeCal s = .next t ∧
    t.tFine = s.tFine ∧ t.tOut = s.tOut ∧ t.pOut = s.pOut ∧ t.hOut = s.hOut)

/-- Pressure and humidity computed after COMP_T are those computed after SET_TFINE of the same T_FINE (the source's explicit
`tFine` argument): a later command reads the new T_FINE at once. -/
def Obligations.TemperatureMayBeGivenExplicitly : Prop :=
  ∀ (adcT adcP : BitVec 20) (adcH : BitVec 16) (s : State), s.status.getLsbD 0 = true →
    ∃ t u t' u' t'' u'', exec (.compT adcT) s = .next t ∧ exec (.setTfine t.tFine) s = .next u ∧
      exec (.compP adcP) t = .next t' ∧ exec (.compP adcP) u = .next u' ∧ t'.pOut = u'.pOut ∧
      exec (.compH adcH) t' = .next t'' ∧ exec (.compH adcH) u' = .next u'' ∧ t''.hOut = u''.hOut

/-! ## Reset -/

/-- R142, R144: reset sets STATUS and T_FINE to 0, and leaves the coefficients and the outputs with no value: the port has none for
any of them. It leaves the image as it was. -/
def Obligations.ResetLeavesTheResetState : Prop :=
  ∀ (s : State) (rest : List HostMove), s.pending = .reset :: rest →
    ∃ t, step s = .next t ∧ t.status = 0x00000000#32 ∧ t.tFine = 0#32 ∧ t.image = s.image ∧ t.pending = rest ∧
      ∀ index : Byte, (0x01 ≤ index.toNat ∧ index.toNat ≤ 0x03) ∨ (0x10 ≤ index.toNat ∧ index.toNat ≤ 0x21) →
        readPort index t = .error (.unwrittenRead index)

/-- R145: State.reset has STATUS and T_FINE 0, and so has the state a reset leaves. From any state with CAL_VALID 0 a step leaves it 0
unless it ran DECODE_CAL, and while it is 0 every compensation command records the model fault F_UNINIT_CAL (MODEL'S CHOICE: and
completes, log entry 5). SET_TFINE and DECODE_CAL complete in every state. From any state with TFINE_SET and T_FINE 0 a step leaves
both 0 unless it ran COMP_T, SET_TFINE or COMP_RAW, and COMP_P and COMP_H then compute the rules' result for T_FINE = 0. Nothing here
rests on the values of CAL and the outputs. -/
def Obligations.StateAfterReset : Prop :=
  (State.reset.status = 0#32 ∧ State.reset.tFine = 0#32) ∧
  (∀ (s : State) (rest : List HostMove), s.pending = .reset :: rest →
    ∃ t, step s = .next t ∧ t.status = 0#32 ∧ t.tFine = 0#32) ∧
  (∀ s t : State, s.status.getLsbD 0 = false → step s = .next t →
    t.status.getLsbD 0 = false ∨ ∃ w rest, s.pending = .command w :: rest ∧ decode w = .ok .decodeCal) ∧
  (∀ (s : State) (i : Instr), s.status.getLsbD 0 = false →
    i = .compRaw ∨ (∃ adc, i = .compT adc) ∨ (∃ adc, i = .compP adc) ∨ (∃ adc, i = .compH adc) →
      ∃ t, exec i s = .next t ∧ t.modelFaults = s.modelFaults ++ [.uninitCal]) ∧
  (∀ s : State, (∀ tf, ∃ t, exec (.setTfine tf) s = .next t ∧ t.modelFaults = s.modelFaults) ∧
    ∃ t, exec .decodeCal s = .next t ∧ t.modelFaults = s.modelFaults ∧ t.status.getLsbD 0 = true ∧ t.tFine = s.tFine) ∧
  (∀ s t : State, s.status.getLsbD 1 = false → s.tFine = 0#32 → step s = .next t →
    (t.status.getLsbD 1 = false ∧ t.tFine = 0#32) ∨
    ∃ w rest i, s.pending = .command w :: rest ∧ decode w = .ok i ∧
      (i = .compRaw ∨ (∃ adc, i = .compT adc) ∨ ∃ tf, i = .setTfine tf)) ∧
  (∀ s : State, s.status.getLsbD 0 = true → s.tFine = 0#32 →
    (∀ adc, ∃ u, exec (.compP adc) s = .next u ∧
      (u.pOut.toNat : Int) = Pseudocode.truncU32 (Pseudocode.pressure s.cal 0 adc.toNat)) ∧
    (∀ adc, ∃ u, exec (.compH adc) s = .next u ∧
      (u.hOut.toNat : Int) = Pseudocode.humidity s.cal 0 adc.toNat))

/-! ## Invariants and runs -/

/-- The invariant holds right after reset. MODEL'S CHOICE: H_OUT's value there (log entry 1). -/
def Obligations.InvariantAtReset : Prop :=
  Inv State.reset

/-- Every step keeps the invariant: the reserved bits of STATUS, the image's canonical form, H_OUT's range, T_FINE 0 while
TFINE_SET is 0, and T_VALID only with TFINE_SET. MODEL'S CHOICE: the H_OUT a reset leaves (log entry 1) and the canonical form
(log entry 4). -/
def Obligations.StepKeepsTheInvariant : Prop :=
  ∀ s t : State, Inv s → step s = .next t → Inv t

/-- A host that calibrates before it compensates and reads only what has a value adds nothing to the fault record and takes no free
value, from any state and for any number of steps; and STATUS is then what the moves served alone make of it. -/
def Obligations.HostThatKeepsItsDutiesNeverFaults : Prop :=
  ∀ (n : Nat) (s : State), hostObeys s.status s.pending = true →
    ∃ t : State, runSteps n s = .next t ∧ t.modelFaults = s.modelFaults ∧ t.freeDraws = s.freeDraws ∧
      t.status = (s.pending.take n).foldl statusAfter s.status ∧ t.pending = s.pending.drop n

/-! ## The assembler -/

/-- R70: a line in range assembles to `(OP << 60) | ARG`, and no line assembles to an illegal word. -/
def Obligations.AssemblerProducesOnlyLegalWords : Prop :=
  (∀ (l : SourceLine) (ws : List Word64), assembleLine l = some ws → ∀ w ∈ ws, ∃ i, decode w = .ok i) ∧
  assembleLine .decodeCal = some [BitVec.ofNat 64 (0x1 * 2 ^ 60)] ∧
  assembleLine .compRaw = some [BitVec.ofNat 64 (0x6 * 2 ^ 60)] ∧
  (∀ n : Nat, n < 2 ^ 20 →
    assembleLine (.compT (.dec false n)) = some [BitVec.ofNat 64 (0x2 * 2 ^ 60 + n)] ∧
    assembleLine (.compT (.hex n)) = some [BitVec.ofNat 64 (0x2 * 2 ^ 60 + n)] ∧
    assembleLine (.compP (.dec false n)) = some [BitVec.ofNat 64 (0x3 * 2 ^ 60 + n)] ∧
    assembleLine (.compP (.hex n)) = some [BitVec.ofNat 64 (0x3 * 2 ^ 60 + n)]) ∧
  (∀ n : Nat, n < 2 ^ 16 →
    assembleLine (.compH (.dec false n)) = some [BitVec.ofNat 64 (0x4 * 2 ^ 60 + n)] ∧
    assembleLine (.compH (.hex n)) = some [BitVec.ofNat 64 (0x4 * 2 ^ 60 + n)]) ∧
  (∀ n : Nat, n < 2 ^ 31 →
    assembleLine (.setTfine (.dec false n)) = some [BitVec.ofNat 64 (0x5 * 2 ^ 60 + n)]) ∧
  (∀ n : Nat, 0 < n → n ≤ 2 ^ 31 →
    assembleLine (.setTfine (.dec true n)) = some [BitVec.ofNat 64 (0x5 * 2 ^ 60 + (2 ^ 32 - n))]) ∧
  (∀ n : Nat, n < 2 ^ 32 → assembleLine (.setTfine (.hex n)) = some [BitVec.ofNat 64 (0x5 * 2 ^ 60 + n)])

/-- R69's ranges: an operand out of range, or a minus sign before an ADC code, has no encoding, and the assembler rejects the
line. -/
def Obligations.AssemblerRejectsOutOfRange : Prop :=
  (∀ l : SourceLine, assembleLine l = none ↔ l.wellFormed = false) ∧
  (∀ n : Nat,
    (SourceLine.wellFormed (.compT (.dec false n)) = true ↔ n ≤ 1048575) ∧
    (SourceLine.wellFormed (.compP (.dec false n)) = true ↔ n ≤ 1048575) ∧
    (SourceLine.wellFormed (.compH (.dec false n)) = true ↔ n ≤ 65535) ∧
    SourceLine.wellFormed (.compT (.dec true n)) = false ∧
    SourceLine.wellFormed (.compP (.dec true n)) = false ∧
    SourceLine.wellFormed (.compH (.dec true n)) = false ∧
    (SourceLine.wellFormed (.compT (.hex n)) = true ↔ n ≤ 1048575) ∧
    (SourceLine.wellFormed (.compP (.hex n)) = true ↔ n ≤ 1048575) ∧
    (SourceLine.wellFormed (.compH (.hex n)) = true ↔ n ≤ 65535) ∧
    (SourceLine.wellFormed (.setTfine (.dec false n)) = true ↔ n ≤ 2147483647) ∧
    (SourceLine.wellFormed (.setTfine (.dec true n)) = true ↔ n ≤ 2147483648) ∧
    (SourceLine.wellFormed (.setTfine (.hex n)) = true ↔ n ≤ 0xFFFFFFFF))

/-- R71, R72: MEASURE and COMP_PH assemble to their three commands in order, and are rejected if one of the three is. -/
def Obligations.PseudoInstructionsExpand : Prop :=
  (∀ a b c : Literal, assembleLine (.measure a b c) =
    match assembleLine (.compT a), assembleLine (.compP b), assembleLine (.compH c) with
    | some x, some y, some z => some (x ++ y ++ z)
    | _, _, _ => none) ∧
  (∀ a b c : Literal, assembleLine (.compPh a b c) =
    match assembleLine (.setTfine a), assembleLine (.compP b), assembleLine (.compH c) with
    | some x, some y, some z => some (x ++ y ++ z)
    | _, _, _ => none)

/-! ## Several instances, and time -/

/-- R44, R138: an instance's step is its own state's step, and it leaves every other instance as it was. -/
def Obligations.InstancesShareNothing : Prop :=
  (∀ (k j : Nat) (sys sys' : System), systemStep k sys = .next sys' → j ≠ k → sys'[j]? = sys[j]?) ∧
  (∀ (k : Nat) (sys : System) (s t : State), sys[k]? = some s → step s = .next t →
    ∃ sys', systemStep k sys = .next sys' ∧ sys'[k]? = some t ∧ sys'.length = sys.length)

/-- R157: no state depends on the latency: with any two latencies the timed step has the same next state, and it is the
step's. -/
def Obligations.LatencyIsNotObservable : Prop :=
  ∀ (l₁ l₂ n₁ n₂ : Nat) (s t : State), step s = .next t →
    ∃ u₁ u₂, timedStep l₁ { state := s, now := n₁ } = .next u₁ ∧ timedStep l₂ { state := s, now := n₂ } = .next u₂ ∧
      u₁.state = t ∧ u₂.state = t
end

