-- ==== Sys2Proof/Laws/Datapath.lean ====
section
/-! SUPPORT. `wrap_N` (spec/00_scope.md R12) as the library's balanced remainder, and the integer values of what enters a
datapath (spec/41_compensation.md R91). -/

namespace Sys2Proof.Machine

/-- `wrap_N(v)` is the balanced remainder of v by 2^N. -/
theorem wrap_eq_bmod (n : Nat) (hn : 0 < n) (v : Int) : Pseudocode.wrap n v = v.bmod (2 ^ n) := by
  obtain ⟨k, rfl⟩ : ∃ k, n = k + 1 := ⟨n - 1, by omega⟩
  have h2 : (2 : Int) ^ (k + 1) = 2 * 2 ^ k := by ring
  have hpos : (0 : Int) < 2 ^ k := by positivity
  have hcast : (((2 ^ (k + 1) : Nat)) : Int) = 2 * 2 ^ k := by push_cast; ring
  simp only [Pseudocode.wrap, Nat.add_sub_cancel, h2]
  rw [Int.bmod_def, hcast]
  generalize (2 : Int) ^ k = p at *
  have h1 : ((2 * p + 1) / 2 : Int) = p := by omega
  rw [h1]
  have hm := Int.emod_nonneg v (show (2 * p : Int) ≠ 0 by omega)
  have hlt := Int.emod_lt_of_pos v (show (0 : Int) < 2 * p by omega)
  split
  · rw [show (v + p) % (2 * p) = v % (2 * p) + p from ?_]
    · ring
    · rw [Int.add_emod, Int.emod_eq_of_lt (a := p) (by omega) (by omega), Int.emod_eq_of_lt] <;> omega
  · rw [show (v + p) % (2 * p) = v % (2 * p) - p from ?_]
    · ring
    · rw [Int.add_emod, Int.emod_eq_of_lt (a := p) (by omega) (by omega),
        ← Int.sub_emod_right, Int.emod_eq_of_lt] <;> omega

/-- A zero-extended field keeps its integer value in a wider signed datapath. -/
theorem toInt_enterU {k n : Nat} (v : BitVec k) (h : k < n) : (enterU n v).toInt = v.toNat := by
  have hv := v.isLt
  have hp : 2 ^ k * 2 ≤ 2 ^ n := by
    rw [← Nat.pow_succ]; exact Nat.pow_le_pow_right (by decide) h
  have hlt : v.toNat < 2 ^ n := by omega
  rw [enterU, BitVec.toInt_eq_toNat_of_lt]
  · simp [BitVec.toNat_setWidth, Nat.mod_eq_of_lt hlt]
  · simp only [BitVec.toNat_setWidth, Nat.mod_eq_of_lt hlt]; omega

/-- A sign-extended value keeps its integer value. -/
theorem toInt_enterS {k n : Nat} (v : BitVec k) (h : k ≤ n) : (enterS n v).toInt = v.toInt :=
  BitVec.toInt_signExtend_of_le h

end Sys2Proof.Machine
end

