-- ==== Sys2Proof/Laws/Decode.lean ====
section
/-! SUPPORT. The fields of a command word: as numbers, and those of a packed word; and what a word must hold to decode to each
command. -/

namespace Sys2Proof

/-- A concatenation as a number: the left operand in the more significant bits (R11). -/
theorem toNat_concat {v w : Nat} (a : BitVec v) (b : BitVec w) : (a ++ b).toNat = a.toNat * 2 ^ w + b.toNat := by
  rw [BitVec.toNat_append, ← Nat.shiftLeft_add_eq_or_of_lt b.isLt, Nat.shiftLeft_eq]

theorem toNat_opField (w : Word64) : (opField w).toNat = w.toNat / 2 ^ 60 := by
  have := w.isLt
  simp [opField, BitVec.extractLsb'_toNat, Nat.shiftRight_eq_div_pow]
  omega

theorem toNat_rsvField (w : Word64) : (rsvField w).toNat = w.toNat / 2 ^ 32 % 2 ^ 28 := by
  simp [rsvField, BitVec.extractLsb'_toNat, Nat.shiftRight_eq_div_pow]

theorem toNat_argField (w : Word64) : (argField w).toNat = w.toNat % 2 ^ 32 := by
  simp [argField, BitVec.extractLsb'_toNat]

theorem toNat_packCommand (op : BitVec 4) (arg : BitVec 32) :
    (packCommand op arg).toNat = op.toNat * 2 ^ 60 + arg.toNat := by
  have ho := op.isLt
  have ha := arg.isLt
  have h1 : (op.setWidth 64 <<< 60).toNat = op.toNat <<< 60 := by
    simp only [BitVec.toNat_shiftLeft, BitVec.toNat_setWidth, Nat.shiftLeft_eq]
    omega
  have h2 : (arg.setWidth 64).toNat = arg.toNat := by
    simp only [BitVec.toNat_setWidth]
    omega
  rw [packCommand, BitVec.toNat_or, h1, h2, ← Nat.shiftLeft_add_eq_or_of_lt (by omega), Nat.shiftLeft_eq]

@[simp] theorem opField_packCommand (op : BitVec 4) (arg : BitVec 32) : opField (packCommand op arg) = op := by
  have := arg.isLt
  apply BitVec.eq_of_toNat_eq
  rw [toNat_opField, toNat_packCommand]
  omega

@[simp] theorem rsvField_packCommand (op : BitVec 4) (arg : BitVec 32) : rsvField (packCommand op arg) = 0#28 := by
  have := arg.isLt
  apply BitVec.eq_of_toNat_eq
  rw [toNat_rsvField, toNat_packCommand, BitVec.toNat_zero]
  omega

@[simp] theorem argField_packCommand (op : BitVec 4) (arg : BitVec 32) : argField (packCommand op arg) = arg := by
  have := arg.isLt
  apply BitVec.eq_of_toNat_eq
  rw [toNat_argField, toNat_packCommand]
  omega

/-- What a word holds when it decodes to a command: its fields, command by command. -/
theorem decode_ok_fields {w : Word64} {i : Instr} (h : decode w = .ok i) :
    rsvField w = 0#28 ∧
    match i with
    | .decodeCal => opField w = 0x1#4 ∧ argField w = 0#32
    | .compT adc => opField w = 0x2#4 ∧ (argField w).extractLsb' 20 12 = 0#12 ∧ (argField w).extractLsb' 0 20 = adc
    | .compP adc => opField w = 0x3#4 ∧ (argField w).extractLsb' 20 12 = 0#12 ∧ (argField w).extractLsb' 0 20 = adc
    | .compH adc => opField w = 0x4#4 ∧ (argField w).extractLsb' 16 16 = 0#16 ∧ (argField w).extractLsb' 0 16 = adc
    | .setTfine tf => opField w = 0x5#4 ∧ argField w = tf
    | .compRaw => opField w = 0x6#4 ∧ argField w = 0#32 := by
  unfold decode adc20Of adc16Of noOperand at h
  split_ifs at h <;> simp only [Except.map, Except.ok.injEq, reduceCtorEq] at h <;> subst h <;> simp_all

end Sys2Proof
end

