-- ==== Sys2Proof/Laws/State.lean ====
section
/-! SUPPORT. One lemma per field per update of the state, so that no proof unfolds a record update. -/

namespace Sys2Proof.Machine

@[simp] theorem writeCal_cal (c : Cal) (s : State) : (writeCal c s).cal = c := rfl
@[simp] theorem writeCal_tFine (c : Cal) (s : State) : (writeCal c s).tFine = s.tFine := rfl
@[simp] theorem writeCal_tOut (c : Cal) (s : State) : (writeCal c s).tOut = s.tOut := rfl
@[simp] theorem writeCal_pOut (c : Cal) (s : State) : (writeCal c s).pOut = s.pOut := rfl
@[simp] theorem writeCal_hOut (c : Cal) (s : State) : (writeCal c s).hOut = s.hOut := rfl
@[simp] theorem writeCal_status (c : Cal) (s : State) : (writeCal c s).status = s.status := rfl
@[simp] theorem writeCal_image (c : Cal) (s : State) : (writeCal c s).image = s.image := rfl
@[simp] theorem writeCal_pending (c : Cal) (s : State) : (writeCal c s).pending = s.pending := rfl
@[simp] theorem writeCal_readData (c : Cal) (s : State) : (writeCal c s).readData = s.readData := rfl
@[simp] theorem writeCal_modelFaults (c : Cal) (s : State) : (writeCal c s).modelFaults = s.modelFaults := rfl
@[simp] theorem writeCal_freeDraws (c : Cal) (s : State) : (writeCal c s).freeDraws = s.freeDraws := rfl

@[simp] theorem writeTFine_cal (v : BitVec 32) (s : State) : (writeTFine v s).cal = s.cal := rfl
@[simp] theorem writeTFine_tFine (v : BitVec 32) (s : State) : (writeTFine v s).tFine = v := rfl
@[simp] theorem writeTFine_tOut (v : BitVec 32) (s : State) : (writeTFine v s).tOut = s.tOut := rfl
@[simp] theorem writeTFine_pOut (v : BitVec 32) (s : State) : (writeTFine v s).pOut = s.pOut := rfl
@[simp] theorem writeTFine_hOut (v : BitVec 32) (s : State) : (writeTFine v s).hOut = s.hOut := rfl
@[simp] theorem writeTFine_status (v : BitVec 32) (s : State) : (writeTFine v s).status = s.status := rfl
@[simp] theorem writeTFine_image (v : BitVec 32) (s : State) : (writeTFine v s).image = s.image := rfl
@[simp] theorem writeTFine_pending (v : BitVec 32) (s : State) : (writeTFine v s).pending = s.pending := rfl
@[simp] theorem writeTFine_readData (v : BitVec 32) (s : State) : (writeTFine v s).readData = s.readData := rfl
@[simp] theorem writeTFine_modelFaults (v : BitVec 32) (s : State) : (writeTFine v s).modelFaults = s.modelFaults := rfl
@[simp] theorem writeTFine_freeDraws (v : BitVec 32) (s : State) : (writeTFine v s).freeDraws = s.freeDraws := rfl

@[simp] theorem writeTOut_cal (v : BitVec 32) (s : State) : (writeTOut v s).cal = s.cal := rfl
@[simp] theorem writeTOut_tFine (v : BitVec 32) (s : State) : (writeTOut v s).tFine = s.tFine := rfl
@[simp] theorem writeTOut_tOut (v : BitVec 32) (s : State) : (writeTOut v s).tOut = v := rfl
@[simp] theorem writeTOut_pOut (v : BitVec 32) (s : State) : (writeTOut v s).pOut = s.pOut := rfl
@[simp] theorem writeTOut_hOut (v : BitVec 32) (s : State) : (writeTOut v s).hOut = s.hOut := rfl
@[simp] theorem writeTOut_status (v : BitVec 32) (s : State) : (writeTOut v s).status = s.status := rfl
@[simp] theorem writeTOut_image (v : BitVec 32) (s : State) : (writeTOut v s).image = s.image := rfl
@[simp] theorem writeTOut_pending (v : BitVec 32) (s : State) : (writeTOut v s).pending = s.pending := rfl
@[simp] theorem writeTOut_readData (v : BitVec 32) (s : State) : (writeTOut v s).readData = s.readData := rfl
@[simp] theorem writeTOut_modelFaults (v : BitVec 32) (s : State) : (writeTOut v s).modelFaults = s.modelFaults := rfl
@[simp] theorem writeTOut_freeDraws (v : BitVec 32) (s : State) : (writeTOut v s).freeDraws = s.freeDraws := rfl

@[simp] theorem writePOut_cal (v : BitVec 32) (s : State) : (writePOut v s).cal = s.cal := rfl
@[simp] theorem writePOut_tFine (v : BitVec 32) (s : State) : (writePOut v s).tFine = s.tFine := rfl
@[simp] theorem writePOut_tOut (v : BitVec 32) (s : State) : (writePOut v s).tOut = s.tOut := rfl
@[simp] theorem writePOut_pOut (v : BitVec 32) (s : State) : (writePOut v s).pOut = v := rfl
@[simp] theorem writePOut_hOut (v : BitVec 32) (s : State) : (writePOut v s).hOut = s.hOut := rfl
@[simp] theorem writePOut_status (v : BitVec 32) (s : State) : (writePOut v s).status = s.status := rfl
@[simp] theorem writePOut_image (v : BitVec 32) (s : State) : (writePOut v s).image = s.image := rfl
@[simp] theorem writePOut_pending (v : BitVec 32) (s : State) : (writePOut v s).pending = s.pending := rfl
@[simp] theorem writePOut_readData (v : BitVec 32) (s : State) : (writePOut v s).readData = s.readData := rfl
@[simp] theorem writePOut_modelFaults (v : BitVec 32) (s : State) : (writePOut v s).modelFaults = s.modelFaults := rfl
@[simp] theorem writePOut_freeDraws (v : BitVec 32) (s : State) : (writePOut v s).freeDraws = s.freeDraws := rfl

@[simp] theorem writeHOut_cal (v : BitVec 32) (s : State) : (writeHOut v s).cal = s.cal := rfl
@[simp] theorem writeHOut_tFine (v : BitVec 32) (s : State) : (writeHOut v s).tFine = s.tFine := rfl
@[simp] theorem writeHOut_tOut (v : BitVec 32) (s : State) : (writeHOut v s).tOut = s.tOut := rfl
@[simp] theorem writeHOut_pOut (v : BitVec 32) (s : State) : (writeHOut v s).pOut = s.pOut := rfl
@[simp] theorem writeHOut_hOut (v : BitVec 32) (s : State) : (writeHOut v s).hOut = v := rfl
@[simp] theorem writeHOut_status (v : BitVec 32) (s : State) : (writeHOut v s).status = s.status := rfl
@[simp] theorem writeHOut_image (v : BitVec 32) (s : State) : (writeHOut v s).image = s.image := rfl
@[simp] theorem writeHOut_pending (v : BitVec 32) (s : State) : (writeHOut v s).pending = s.pending := rfl
@[simp] theorem writeHOut_readData (v : BitVec 32) (s : State) : (writeHOut v s).readData = s.readData := rfl
@[simp] theorem writeHOut_modelFaults (v : BitVec 32) (s : State) : (writeHOut v s).modelFaults = s.modelFaults := rfl
@[simp] theorem writeHOut_freeDraws (v : BitVec 32) (s : State) : (writeHOut v s).freeDraws = s.freeDraws := rfl

@[simp] theorem setStatus_cal (f : StatusField) (s : State) : (setStatus f s).cal = s.cal := rfl
@[simp] theorem setStatus_tFine (f : StatusField) (s : State) : (setStatus f s).tFine = s.tFine := rfl
@[simp] theorem setStatus_tOut (f : StatusField) (s : State) : (setStatus f s).tOut = s.tOut := rfl
@[simp] theorem setStatus_pOut (f : StatusField) (s : State) : (setStatus f s).pOut = s.pOut := rfl
@[simp] theorem setStatus_hOut (f : StatusField) (s : State) : (setStatus f s).hOut = s.hOut := rfl
@[simp] theorem setStatus_status (f : StatusField) (s : State) : (setStatus f s).status = withField s.status f := rfl
@[simp] theorem setStatus_image (f : StatusField) (s : State) : (setStatus f s).image = s.image := rfl
@[simp] theorem setStatus_pending (f : StatusField) (s : State) : (setStatus f s).pending = s.pending := rfl
@[simp] theorem setStatus_readData (f : StatusField) (s : State) : (setStatus f s).readData = s.readData := rfl
@[simp] theorem setStatus_modelFaults (f : StatusField) (s : State) : (setStatus f s).modelFaults = s.modelFaults := rfl
@[simp] theorem setStatus_freeDraws (f : StatusField) (s : State) : (setStatus f s).freeDraws = s.freeDraws := rfl

@[simp] theorem supplyByte_cal (a b : Byte) (s : State) : (supplyByte a b s).cal = s.cal := rfl
@[simp] theorem supplyByte_tFine (a b : Byte) (s : State) : (supplyByte a b s).tFine = s.tFine := rfl
@[simp] theorem supplyByte_tOut (a b : Byte) (s : State) : (supplyByte a b s).tOut = s.tOut := rfl
@[simp] theorem supplyByte_pOut (a b : Byte) (s : State) : (supplyByte a b s).pOut = s.pOut := rfl
@[simp] theorem supplyByte_hOut (a b : Byte) (s : State) : (supplyByte a b s).hOut = s.hOut := rfl
@[simp] theorem supplyByte_status (a b : Byte) (s : State) : (supplyByte a b s).status = s.status := rfl
@[simp] theorem supplyByte_image (a b : Byte) (s : State) : (supplyByte a b s).image = s.image.writeByte a b := rfl
@[simp] theorem supplyByte_pending (a b : Byte) (s : State) : (supplyByte a b s).pending = s.pending := rfl
@[simp] theorem supplyByte_readData (a b : Byte) (s : State) : (supplyByte a b s).readData = s.readData := rfl
@[simp] theorem supplyByte_modelFaults (a b : Byte) (s : State) : (supplyByte a b s).modelFaults = s.modelFaults := rfl
@[simp] theorem supplyByte_freeDraws (a b : Byte) (s : State) : (supplyByte a b s).freeDraws = s.freeDraws := rfl

@[simp] theorem writePending_cal (ms : List HostMove) (s : State) : (writePending ms s).cal = s.cal := rfl
@[simp] theorem writePending_tFine (ms : List HostMove) (s : State) : (writePending ms s).tFine = s.tFine := rfl
@[simp] theorem writePending_tOut (ms : List HostMove) (s : State) : (writePending ms s).tOut = s.tOut := rfl
@[simp] theorem writePending_pOut (ms : List HostMove) (s : State) : (writePending ms s).pOut = s.pOut := rfl
@[simp] theorem writePending_hOut (ms : List HostMove) (s : State) : (writePending ms s).hOut = s.hOut := rfl
@[simp] theorem writePending_status (ms : List HostMove) (s : State) : (writePending ms s).status = s.status := rfl
@[simp] theorem writePending_image (ms : List HostMove) (s : State) : (writePending ms s).image = s.image := rfl
@[simp] theorem writePending_pending (ms : List HostMove) (s : State) : (writePending ms s).pending = ms := rfl
@[simp] theorem writePending_readData (ms : List HostMove) (s : State) : (writePending ms s).readData = s.readData := rfl
@[simp] theorem writePending_modelFaults (ms : List HostMove) (s : State) : (writePending ms s).modelFaults = s.modelFaults := rfl
@[simp] theorem writePending_freeDraws (ms : List HostMove) (s : State) : (writePending ms s).freeDraws = s.freeDraws := rfl

@[simp] theorem writeReadData_cal (w : BitVec 32) (s : State) : (writeReadData w s).cal = s.cal := rfl
@[simp] theorem writeReadData_tFine (w : BitVec 32) (s : State) : (writeReadData w s).tFine = s.tFine := rfl
@[simp] theorem writeReadData_tOut (w : BitVec 32) (s : State) : (writeReadData w s).tOut = s.tOut := rfl
@[simp] theorem writeReadData_pOut (w : BitVec 32) (s : State) : (writeReadData w s).pOut = s.pOut := rfl
@[simp] theorem writeReadData_hOut (w : BitVec 32) (s : State) : (writeReadData w s).hOut = s.hOut := rfl
@[simp] theorem writeReadData_status (w : BitVec 32) (s : State) : (writeReadData w s).status = s.status := rfl
@[simp] theorem writeReadData_image (w : BitVec 32) (s : State) : (writeReadData w s).image = s.image := rfl
@[simp] theorem writeReadData_pending (w : BitVec 32) (s : State) : (writeReadData w s).pending = s.pending := rfl
@[simp] theorem writeReadData_readData (w : BitVec 32) (s : State) : (writeReadData w s).readData = some w := rfl
@[simp] theorem writeReadData_modelFaults (w : BitVec 32) (s : State) : (writeReadData w s).modelFaults = s.modelFaults := rfl
@[simp] theorem writeReadData_freeDraws (w : BitVec 32) (s : State) : (writeReadData w s).freeDraws = s.freeDraws := rfl

@[simp] theorem assertReset_cal (s : State) : (assertReset s).cal = Cal.reset := rfl
@[simp] theorem assertReset_tFine (s : State) : (assertReset s).tFine = 0#32 := rfl
@[simp] theorem assertReset_tOut (s : State) : (assertReset s).tOut = 0#32 := rfl
@[simp] theorem assertReset_pOut (s : State) : (assertReset s).pOut = 0#32 := rfl
@[simp] theorem assertReset_hOut (s : State) : (assertReset s).hOut = 0#32 := rfl
@[simp] theorem assertReset_status (s : State) : (assertReset s).status = 0#32 := rfl
@[simp] theorem assertReset_image (s : State) : (assertReset s).image = s.image := rfl
@[simp] theorem assertReset_pending (s : State) : (assertReset s).pending = s.pending := rfl
@[simp] theorem assertReset_readData (s : State) : (assertReset s).readData = s.readData := rfl
@[simp] theorem assertReset_modelFaults (s : State) : (assertReset s).modelFaults = s.modelFaults := rfl
@[simp] theorem assertReset_freeDraws (s : State) : (assertReset s).freeDraws = s.freeDraws := rfl

@[simp] theorem noteModelFault_cal (f : ModelFault) (s : State) : (noteModelFault f s).cal = s.cal := rfl
@[simp] theorem noteModelFault_tFine (f : ModelFault) (s : State) : (noteModelFault f s).tFine = s.tFine := rfl
@[simp] theorem noteModelFault_tOut (f : ModelFault) (s : State) : (noteModelFault f s).tOut = s.tOut := rfl
@[simp] theorem noteModelFault_pOut (f : ModelFault) (s : State) : (noteModelFault f s).pOut = s.pOut := rfl
@[simp] theorem noteModelFault_hOut (f : ModelFault) (s : State) : (noteModelFault f s).hOut = s.hOut := rfl
@[simp] theorem noteModelFault_status (f : ModelFault) (s : State) : (noteModelFault f s).status = s.status := rfl
@[simp] theorem noteModelFault_image (f : ModelFault) (s : State) : (noteModelFault f s).image = s.image := rfl
@[simp] theorem noteModelFault_pending (f : ModelFault) (s : State) : (noteModelFault f s).pending = s.pending := rfl
@[simp] theorem noteModelFault_readData (f : ModelFault) (s : State) : (noteModelFault f s).readData = s.readData := rfl
@[simp] theorem noteModelFault_modelFaults (f : ModelFault) (s : State) :
    (noteModelFault f s).modelFaults = s.modelFaults ++ [f] := rfl
@[simp] theorem noteModelFault_freeDraws (f : ModelFault) (s : State) :
    (noteModelFault f s).freeDraws = s.freeDraws + 1 := rfl

theorem statusIsSet_eq (f : StatusField) (s : State) : statusIsSet f s = fieldIsSet s.status f := rfl

end Sys2Proof.Machine
end

