-- ==== Sys2Proof/Laws/Status.lean ====
section
/-! SUPPORT. The STATUS register: what setting a field does to each bit, and the masks of the commands. -/

namespace Sys2Proof.Machine

theorem statusBit_lt (f : StatusField) : statusBit f < 32 := by cases f <;> decide

theorem statusBit_inj {f g : StatusField} : statusBit f = statusBit g ↔ f = g := by
  cases f <;> cases g <;> decide

@[simp] theorem getLsbD_withField (st : BitVec 32) (f : StatusField) (k : Nat) :
    (withField st f).getLsbD k = (st.getLsbD k || decide (k = statusBit f)) := by
  have := statusBit_lt f
  by_cases h : k = statusBit f
  · subst h; simp [withField, this]
  · simp [withField, BitVec.getLsbD_twoPow, h, Ne.symm h]

@[simp] theorem fieldIsSet_withField (st : BitVec 32) (f g : StatusField) :
    fieldIsSet (withField st f) g = (fieldIsSet st g || decide (g = f)) := by
  simp [fieldIsSet, statusBit_inj]

@[simp] theorem fieldIsSet_zero (f : StatusField) : fieldIsSet 0#32 f = false := by simp [fieldIsSet]

theorem withField_calValid (st : BitVec 32) : withField st .calValid = st ||| 0x01#32 := rfl
theorem withField_tfineSet (st : BitVec 32) : withField st .tfineSet = st ||| 0x02#32 := rfl
theorem withField_tValid (st : BitVec 32) : withField st .tValid = st ||| 0x04#32 := rfl
theorem withField_pValid (st : BitVec 32) : withField st .pValid = st ||| 0x08#32 := rfl
theorem withField_hValid (st : BitVec 32) : withField st .hValid = st ||| 0x10#32 := rfl
theorem withField_ill (st : BitVec 32) : withField st .ill = st ||| 0x20#32 := rfl

/-- Setting a field leaves the reserved bits as they are. -/
theorem withField_reserved (st : BitVec 32) (f : StatusField) :
    withField st f &&& 0xFFFFFFC0#32 = st &&& 0xFFFFFFC0#32 := by
  have h : BitVec.twoPow 32 (statusBit f) &&& 0xFFFFFFC0#32 = 0#32 := by cases f <;> decide
  rw [withField, BitVec.and_comm (_ ||| _), BitVec.and_or_distrib_left, BitVec.and_comm _ (BitVec.twoPow _ _), h,
    BitVec.or_zero, BitVec.and_comm]

end Sys2Proof.Machine
end

