-- ==== Sys2Proof/Laws/Exec.lean ====
section
/-! SUPPORT. What the shared operations and the step can do, each said once. -/

namespace Sys2Proof.Machine

/-! ## The CAL_VALID check -/

theorem coefficientsInUse_of_valid {s : State} (h : statusIsSet .calValid s = true) : coefficientsInUse s = s.cal :=
  if_pos h

theorem coefficientsInUse_of_not_valid {s : State} (h : statusIsSet .calValid s = false) :
    coefficientsInUse s = Config.unspecifiedCal s.freeDraws :=
  if_neg (by simp [h])

theorem checkCalibration_of_valid {s : State} (h : statusIsSet .calValid s = true) : checkCalibration s = s :=
  if_pos h

theorem checkCalibration_of_not_valid {s : State} (h : statusIsSet .calValid s = false) :
    checkCalibration s = noteModelFault .uninitCal s :=
  if_neg (by simp [h])

/-- The check changes at most the fault record and the count of free values. -/
theorem checkCalibration_cases (s : State) :
    (statusIsSet .calValid s = true ∧ checkCalibration s = s) ∨
    (statusIsSet .calValid s = false ∧ checkCalibration s = noteModelFault .uninitCal s) := by
  cases h : statusIsSet .calValid s
  · exact .inr ⟨rfl, checkCalibration_of_not_valid h⟩
  · exact .inl ⟨rfl, checkCalibration_of_valid h⟩

@[simp] theorem checkCalibration_cal (s : State) : (checkCalibration s).cal = s.cal := by
  unfold checkCalibration; split <;> rfl
@[simp] theorem checkCalibration_tFine (s : State) : (checkCalibration s).tFine = s.tFine := by
  unfold checkCalibration; split <;> rfl
@[simp] theorem checkCalibration_tOut (s : State) : (checkCalibration s).tOut = s.tOut := by
  unfold checkCalibration; split <;> rfl
@[simp] theorem checkCalibration_pOut (s : State) : (checkCalibration s).pOut = s.pOut := by
  unfold checkCalibration; split <;> rfl
@[simp] theorem checkCalibration_hOut (s : State) : (checkCalibration s).hOut = s.hOut := by
  unfold checkCalibration; split <;> rfl
@[simp] theorem checkCalibration_status (s : State) : (checkCalibration s).status = s.status := by
  unfold checkCalibration; split <;> rfl
@[simp] theorem checkCalibration_image (s : State) : (checkCalibration s).image = s.image := by
  unfold checkCalibration; split <;> rfl
@[simp] theorem checkCalibration_pending (s : State) : (checkCalibration s).pending = s.pending := by
  unfold checkCalibration; split <;> rfl
@[simp] theorem checkCalibration_readData (s : State) : (checkCalibration s).readData = s.readData := by
  unfold checkCalibration; split <;> rfl

/-- A command that needs the coefficients always answers a next state. -/
theorem withCalibration_next {effect : Cal → State → State} {s t : State} :
    withCalibration effect s = .next t ↔ t = effect (coefficientsInUse s) (checkCalibration s) := by
  simp [withCalibration, eq_comm (a := t)]

theorem withCalibration_of_valid {effect : Cal → State → State} {s : State} (h : statusIsSet .calValid s = true) :
    withCalibration effect s = .next (effect s.cal s) := by
  rw [withCalibration, coefficientsInUse_of_valid h, checkCalibration_of_valid h]

theorem withCalibration_of_not_valid {effect : Cal → State → State} {s : State} (h : statusIsSet .calValid s = false) :
    withCalibration effect s =
      .next (effect (Config.unspecifiedCal s.freeDraws) (noteModelFault .uninitCal s)) := by
  rw [withCalibration, coefficientsInUse_of_not_valid h, checkCalibration_of_not_valid h]

/-! ## The writes of each command, as one record update -/

theorem setStatus_writeTOut_writeTFine (tf t : BitVec 32) (s : State) :
    setStatus .tValid (setStatus .tfineSet (writeTOut t (writeTFine tf s))) =
      { s with tFine := tf, tOut := t, status := withField (withField s.status .tfineSet) .tValid } := rfl

theorem setStatus_writePOut (p : BitVec 32) (s : State) :
    setStatus .pValid (writePOut p s) = { s with pOut := p, status := withField s.status .pValid } := rfl

theorem setStatus_writeHOut (h : BitVec 32) (s : State) :
    setStatus .hValid (writeHOut h s) = { s with hOut := h, status := withField s.status .hValid } := rfl

theorem performCompT_eq (adc : BitVec 20) (c : Cal) (s : State) :
    performCompT adc c s = { s with
      tFine := (temperatureStages c adc).1, tOut := (temperatureStages c adc).2,
      status := withField (withField s.status .tfineSet) .tValid } := by
  rw [performCompT, setStatus_writeTOut_writeTFine]

theorem performCompP_eq (adc : BitVec 20) (c : Cal) (s : State) :
    performCompP adc c s = { s with
      pOut := (pressureStages c s.tFine adc).setWidth 32, status := withField s.status .pValid } := by
  rw [performCompP, setStatus_writePOut]

theorem performCompH_eq (adc : BitVec 16) (c : Cal) (s : State) :
    performCompH adc c s = { s with
      hOut := humidityResult (humidityStages c s.tFine adc), status := withField s.status .hValid } := by
  rw [performCompH, setStatus_writeHOut]

/-! ## The writes of each command, field by field -/

@[simp] theorem performCompT_cal (adc : BitVec 20) (c : Cal) (s : State) :
    (performCompT adc c s).cal = s.cal := by rw [performCompT_eq]
@[simp] theorem performCompT_tFine (adc : BitVec 20) (c : Cal) (s : State) :
    (performCompT adc c s).tFine = (temperatureStages c adc).1 := by rw [performCompT_eq]
@[simp] theorem performCompT_tOut (adc : BitVec 20) (c : Cal) (s : State) :
    (performCompT adc c s).tOut = (temperatureStages c adc).2 := by rw [performCompT_eq]
@[simp] theorem performCompT_pOut (adc : BitVec 20) (c : Cal) (s : State) :
    (performCompT adc c s).pOut = s.pOut := by rw [performCompT_eq]
@[simp] theorem performCompT_hOut (adc : BitVec 20) (c : Cal) (s : State) :
    (performCompT adc c s).hOut = s.hOut := by rw [performCompT_eq]
@[simp] theorem performCompT_status (adc : BitVec 20) (c : Cal) (s : State) :
    (performCompT adc c s).status = withField (withField s.status .tfineSet) .tValid := by rw [performCompT_eq]
@[simp] theorem performCompT_image (adc : BitVec 20) (c : Cal) (s : State) :
    (performCompT adc c s).image = s.image := by rw [performCompT_eq]
@[simp] theorem performCompT_pending (adc : BitVec 20) (c : Cal) (s : State) :
    (performCompT adc c s).pending = s.pending := by rw [performCompT_eq]
@[simp] theorem performCompT_readData (adc : BitVec 20) (c : Cal) (s : State) :
    (performCompT adc c s).readData = s.readData := by rw [performCompT_eq]
@[simp] theorem performCompT_modelFaults (adc : BitVec 20) (c : Cal) (s : State) :
    (performCompT adc c s).modelFaults = s.modelFaults := by rw [performCompT_eq]
@[simp] theorem performCompT_freeDraws (adc : BitVec 20) (c : Cal) (s : State) :
    (performCompT adc c s).freeDraws = s.freeDraws := by rw [performCompT_eq]

@[simp] theorem performCompP_cal (adc : BitVec 20) (c : Cal) (s : State) :
    (performCompP adc c s).cal = s.cal := by rw [performCompP_eq]
@[simp] theorem performCompP_tFine (adc : BitVec 20) (c : Cal) (s : State) :
    (performCompP adc c s).tFine = s.tFine := by rw [performCompP_eq]
@[simp] theorem performCompP_tOut (adc : BitVec 20) (c : Cal) (s : State) :
    (performCompP adc c s).tOut = s.tOut := by rw [performCompP_eq]
@[simp] theorem performCompP_pOut (adc : BitVec 20) (c : Cal) (s : State) :
    (performCompP adc c s).pOut = (pressureStages c s.tFine adc).setWidth 32 := by rw [performCompP_eq]
@[simp] theorem performCompP_hOut (adc : BitVec 20) (c : Cal) (s : State) :
    (performCompP adc c s).hOut = s.hOut := by rw [performCompP_eq]
@[simp] theorem performCompP_status (adc : BitVec 20) (c : Cal) (s : State) :
    (performCompP adc c s).status = withField s.status .pValid := by rw [performCompP_eq]
@[simp] theorem performCompP_image (adc : BitVec 20) (c : Cal) (s : State) :
    (performCompP adc c s).image = s.image := by rw [performCompP_eq]
@[simp] theorem performCompP_pending (adc : BitVec 20) (c : Cal) (s : State) :
    (performCompP adc c s).pending = s.pending := by rw [performCompP_eq]
@[simp] theorem performCompP_readData (adc : BitVec 20) (c : Cal) (s : State) :
    (performCompP adc c s).readData = s.readData := by rw [performCompP_eq]
@[simp] theorem performCompP_modelFaults (adc : BitVec 20) (c : Cal) (s : State) :
    (performCompP adc c s).modelFaults = s.modelFaults := by rw [performCompP_eq]
@[simp] theorem performCompP_freeDraws (adc : BitVec 20) (c : Cal) (s : State) :
    (performCompP adc c s).freeDraws = s.freeDraws := by rw [performCompP_eq]

@[simp] theorem performCompH_cal (adc : BitVec 16) (c : Cal) (s : State) :
    (performCompH adc c s).cal = s.cal := by rw [performCompH_eq]
@[simp] theorem performCompH_tFine (adc : BitVec 16) (c : Cal) (s : State) :
    (performCompH adc c s).tFine = s.tFine := by rw [performCompH_eq]
@[simp] theorem performCompH_tOut (adc : BitVec 16) (c : Cal) (s : State) :
    (performCompH adc c s).tOut = s.tOut := by rw [performCompH_eq]
@[simp] theorem performCompH_pOut (adc : BitVec 16) (c : Cal) (s : State) :
    (performCompH adc c s).pOut = s.pOut := by rw [performCompH_eq]
@[simp] theorem performCompH_hOut (adc : BitVec 16) (c : Cal) (s : State) :
    (performCompH adc c s).hOut = humidityResult (humidityStages c s.tFine adc) := by rw [performCompH_eq]
@[simp] theorem performCompH_status (adc : BitVec 16) (c : Cal) (s : State) :
    (performCompH adc c s).status = withField s.status .hValid := by rw [performCompH_eq]
@[simp] theorem performCompH_image (adc : BitVec 16) (c : Cal) (s : State) :
    (performCompH adc c s).image = s.image := by rw [performCompH_eq]
@[simp] theorem performCompH_pending (adc : BitVec 16) (c : Cal) (s : State) :
    (performCompH adc c s).pending = s.pending := by rw [performCompH_eq]
@[simp] theorem performCompH_readData (adc : BitVec 16) (c : Cal) (s : State) :
    (performCompH adc c s).readData = s.readData := by rw [performCompH_eq]
@[simp] theorem performCompH_modelFaults (adc : BitVec 16) (c : Cal) (s : State) :
    (performCompH adc c s).modelFaults = s.modelFaults := by rw [performCompH_eq]
@[simp] theorem performCompH_freeDraws (adc : BitVec 16) (c : Cal) (s : State) :
    (performCompH adc c s).freeDraws = s.freeDraws := by rw [performCompH_eq]

/-! ## The step -/

theorem serveHost_nil {s : State} (h : s.pending = []) : serveHost s = .next s := by
  simp [serveHost, nextMove, h]

theorem serveHost_cons {s : State} {m : HostMove} {rest : List HostMove} (h : s.pending = m :: rest) :
    serveHost s = performMove m (writePending rest s) := by
  simp [serveHost, nextMove, h]

/-- A read always answers a next state: the register's word, or an unspecified word and a recorded fault. -/
theorem readMove_next {index : Byte} {s t : State} :
    readMove index s = .next t ↔
      (∃ w, readPort index s = .ok w ∧ t = writeReadData w s) ∨
      ∃ f, readPort index s = .error f ∧
        t = writeReadData (Config.unspecifiedWord s.freeDraws) (noteModelFault f s) := by
  unfold readMove
  cases readPort index s <;> simp [eq_comm (a := t)]

/-- Everything a step can do when it answers a next state. -/
theorem step_next_cases {s t : State} (h : step s = .next t) :
    (s.pending = [] ∧ t = s) ∨
    ∃ m rest, s.pending = m :: rest ∧
      ((∃ w i, m = .command w ∧ decode w = .ok i ∧ exec i (writePending rest s) = .next t) ∨
       (∃ w e, m = .command w ∧ decode w = .error e ∧ t = raiseIllegalCommand (writePending rest s)) ∨
       (∃ index w, m = .read index ∧ readPort index (writePending rest s) = .ok w ∧
         t = writeReadData w (writePending rest s)) ∨
       (∃ index f, m = .read index ∧ readPort index (writePending rest s) = .error f ∧
         t = writeReadData (Config.unspecifiedWord s.freeDraws) (noteModelFault f (writePending rest s))) ∨
       (∃ a b, m = .supply a b ∧ t = supplyByte a b (writePending rest s)) ∨
       (m = .reset ∧ t = assertReset (writePending rest s))) := by
  cases hp : s.pending with
  | nil =>
    rw [step, serveHost_nil hp] at h
    exact .inl ⟨rfl, by simpa using h.symm⟩
  | cons m rest =>
    rw [step, serveHost_cons hp] at h
    refine .inr ⟨m, rest, rfl, ?_⟩
    cases m with
    | command w =>
      simp only [performMove, issueCommand] at h
      split at h
      · next i hi => exact .inl ⟨w, i, rfl, hi, h⟩
      · next e he => exact .inr (.inl ⟨w, e, rfl, he, by simpa using h.symm⟩)
    | read index =>
      obtain ⟨w, hw, ht⟩ | ⟨f, hf, ht⟩ := readMove_next.mp h
      · exact .inr (.inr (.inl ⟨index, w, rfl, hw, ht⟩))
      · exact .inr (.inr (.inr (.inl ⟨index, f, rfl, hf, ht⟩)))
    | supply a b => exact .inr (.inr (.inr (.inr (.inl ⟨a, b, rfl, by simpa [performMove] using h.symm⟩))))
    | reset => exact .inr (.inr (.inr (.inr (.inr ⟨rfl, by simpa [performMove] using h.symm⟩))))

theorem performMove_completes (m : HostMove) (s : State) : ∃ t, performMove m s = .next t := by
  cases m with
  | command w =>
    simp only [performMove, issueCommand]
    split
    · next i _ => cases i <;> exact ⟨_, rfl⟩
    · exact ⟨_, rfl⟩
  | read index =>
    simp only [performMove, readMove]
    split <;> exact ⟨_, rfl⟩
  | supply a b => exact ⟨_, rfl⟩
  | reset => exact ⟨_, rfl⟩

/-- No step stops. -/
theorem step_completes (s : State) : ∃ t, step s = .next t := by
  cases h : s.pending with
  | nil => exact ⟨s, by rw [step, serveHost_nil h]⟩
  | cons m rest => rw [step, serveHost_cons h]; exact performMove_completes m _

end Sys2Proof.Machine
end

