-- ==== Sys2Proof/Laws/Effect.lean ====
section
/-! SUPPORT. `exec` as one check and one effect: what every proof about all commands splits on. -/

namespace Sys2Proof.Machine

/-- What a command does with the coefficients it uses (no part in DECODE_CAL and SET_TFINE). -/
def effectOf (i : Instr) (c : Cal) (s : State) : State :=
  match i with
  | .decodeCal => setStatus .calValid (writeCal (decodeCoefficients s.image) s)
  | .compT adc => performCompT adc c s
  | .compP adc => performCompP adc c s
  | .compH adc => performCompH adc c s
  | .setTfine tf => setStatus .tfineSet (writeTFine tf s)
  | .compRaw => performCompRaw c s

/-- A command that needs the coefficients makes the CAL_VALID check first; else it is its effect. -/
theorem exec_eq (i : Instr) (s : State) :
    exec i s = if needsCalibration i = true then withCalibration (effectOf i) s else .next (effectOf i s.cal s) := by
  cases i <;> rfl

/-- With CAL_VALID 1 every command is its effect with CAL. -/
theorem exec_of_valid {i : Instr} {s : State} (h : statusIsSet .calValid s = true) :
    exec i s = .next (effectOf i s.cal s) := by
  rw [exec_eq]
  split
  · exact withCalibration_of_valid h
  · rfl

/-- With CAL_VALID 0 a command that needs the coefficients is its effect with an unspecified file, the fault recorded. -/
theorem exec_of_not_valid {i : Instr} {s : State} (hi : needsCalibration i = true) (h : statusIsSet .calValid s = false) :
    exec i s = .next (effectOf i (Config.unspecifiedCal s.freeDraws) (noteModelFault .uninitCal s)) := by
  rw [exec_eq, if_pos hi, withCalibration_of_not_valid h]

/-- Everything a command can do: its effect with CAL, or with an unspecified file and the fault recorded. -/
theorem exec_next_cases {i : Instr} {s t : State} (h : exec i s = .next t) :
    ((needsCalibration i = false ∨ statusIsSet .calValid s = true) ∧ t = effectOf i s.cal s) ∨
    ((needsCalibration i = true ∧ statusIsSet .calValid s = false) ∧
      t = effectOf i (Config.unspecifiedCal s.freeDraws) (noteModelFault .uninitCal s)) := by
  cases hi : needsCalibration i
  · rw [exec_eq, hi] at h
    exact .inl ⟨.inl rfl, by simpa using h.symm⟩
  · cases hv : statusIsSet .calValid s
    · rw [exec_of_not_valid hi hv] at h
      exact .inr ⟨⟨rfl, rfl⟩, by simpa using h.symm⟩
    · rw [exec_of_valid hv] at h
      exact .inl ⟨.inr rfl, by simpa using h.symm⟩

/-- Every command completes (R125). -/
theorem exec_completes (i : Instr) (s : State) : ∃ t, exec i s = .next t := by
  cases i <;> exact ⟨_, rfl⟩

/-! ## What no command's effect changes, and what each makes of STATUS -/

@[simp] theorem effectOf_image (i : Instr) (c : Cal) (s : State) : (effectOf i c s).image = s.image := by cases i <;> rfl
@[simp] theorem effectOf_pending (i : Instr) (c : Cal) (s : State) : (effectOf i c s).pending = s.pending := by cases i <;> rfl
@[simp] theorem effectOf_modelFaults (i : Instr) (c : Cal) (s : State) :
    (effectOf i c s).modelFaults = s.modelFaults := by cases i <;> rfl
@[simp] theorem effectOf_freeDraws (i : Instr) (c : Cal) (s : State) :
    (effectOf i c s).freeDraws = s.freeDraws := by cases i <;> rfl
@[simp] theorem effectOf_readData (i : Instr) (c : Cal) (s : State) : (effectOf i c s).readData = s.readData := by cases i <;> rfl

/-- The fields a command sets, in the order it sets them, and no other bit. -/
theorem effectOf_status (i : Instr) (c : Cal) (s : State) :
    (effectOf i c s).status = (fieldsSetBy i).foldl withField s.status := by cases i <;> rfl

/-- Only DECODE_CAL's effect writes the coefficient file. -/
theorem effectOf_cal (i : Instr) (c : Cal) (s : State) :
    (effectOf i c s).cal = if i = .decodeCal then decodeCoefficients s.image else s.cal := by
  cases i <;> rfl

/-! ## The host side has no part in a command -/

theorem effectOf_writePending (i : Instr) (c : Cal) (ms : List HostMove) (s : State) :
    effectOf i c (writePending ms s) = writePending ms (effectOf i c s) := by cases i <;> rfl

theorem effectOf_writeReadData (i : Instr) (c : Cal) (w : BitVec 32) (s : State) :
    effectOf i c (writeReadData w s) = writeReadData w (effectOf i c s) := by cases i <;> rfl

end Sys2Proof.Machine
end

