-- ==== Sys2Proof/Laws/Memory.lean ====
section
/-! SUPPORT. The sensor register image: what a byte reads as after the host has supplied one, and that every operation keeps
the canonical form. -/

namespace Sys2Proof.Machine

@[simp] theorem Memory.lookup_nil (a : Nat) : Memory.lookup [] a = Memory.unlistedByte := rfl

/-- A key below every listed key is not listed. -/
theorem Memory.lookup_of_all_lt {m : Memory} {a : Nat} (h : m.all (fun c => decide (a < c.1)) = true) :
    m.lookup a = Memory.unlistedByte := by
  induction m with
  | nil => rfl
  | cons c rest ih =>
    obtain ⟨k, v⟩ := c
    simp only [List.all_cons, Bool.and_eq_true, decide_eq_true_eq] at h
    simp [Memory.lookup, Nat.ne_of_gt h.1, ih h.2]

theorem Memory.wf_cons {k : Nat} {v : Byte} {rest : Memory} :
    Memory.wf ((k, v) :: rest) = true ↔
      k < 256 ∧ v ≠ Memory.unlistedByte ∧ rest.all (fun c => decide (k < c.1)) = true ∧ Memory.wf rest = true := by
  simp [Memory.wf, and_assoc]

theorem Memory.all_lt_trans {m : Memory} {a k : Nat} (hak : a < k)
    (h : m.all (fun c => decide (k < c.1)) = true) : m.all (fun c => decide (a < c.1)) = true := by
  simp only [List.all_eq_true, decide_eq_true_eq] at h ⊢
  exact fun c hc => Nat.lt_trans hak (h c hc)

theorem Memory.insert_all_lt {m : Memory} {a k : Nat} {b : Byte} (hka : k < a)
    (h : m.all (fun c => decide (k < c.1)) = true) :
    (Memory.insert m a b).all (fun c => decide (k < c.1)) = true := by
  induction m with
  | nil => simpa [Memory.insert] using hka
  | cons c rest ih =>
    obtain ⟨j, v⟩ := c
    simp only [List.all_cons, Bool.and_eq_true, decide_eq_true_eq] at h
    simp only [Memory.insert]
    split
    · simp [hka, h.1, h.2]
    · split
      · simp [hka, h.2]
      · simp [h.1, ih h.2]

theorem Memory.erase_all_lt {m : Memory} {a k : Nat} (h : m.all (fun c => decide (k < c.1)) = true) :
    (Memory.erase m a).all (fun c => decide (k < c.1)) = true := by
  induction m with
  | nil => rfl
  | cons c rest ih =>
    obtain ⟨j, v⟩ := c
    simp only [List.all_cons, Bool.and_eq_true, decide_eq_true_eq] at h
    simp only [Memory.erase]
    split
    · exact h.2
    · simp [h.1, ih h.2]

theorem Memory.insert_wf {m : Memory} {a : Nat} {b : Byte} (ha : a < 256) (hb : b ≠ Memory.unlistedByte)
    (h : m.wf = true) : (Memory.insert m a b).wf = true := by
  induction m with
  | nil => simp [Memory.insert, Memory.wf, ha, hb]
  | cons c rest ih =>
    obtain ⟨k, v⟩ := c
    have h' := Memory.wf_cons.mp h
    simp only [Memory.insert]
    split
    · next hak =>
      exact Memory.wf_cons.mpr ⟨ha, hb, by simp [hak, Memory.all_lt_trans hak h'.2.2.1], h⟩
    · split
      · next _ hak => exact Memory.wf_cons.mpr ⟨ha, hb, hak ▸ h'.2.2.1, h'.2.2.2⟩
      · exact Memory.wf_cons.mpr
          ⟨h'.1, h'.2.1, Memory.insert_all_lt (by omega) h'.2.2.1, ih h'.2.2.2⟩

theorem Memory.erase_wf {m : Memory} {a : Nat} (h : m.wf = true) : (Memory.erase m a).wf = true := by
  induction m with
  | nil => rfl
  | cons c rest ih =>
    obtain ⟨k, v⟩ := c
    have h' := Memory.wf_cons.mp h
    simp only [Memory.erase]
    split
    · exact h'.2.2.2
    · exact Memory.wf_cons.mpr ⟨h'.1, h'.2.1, Memory.erase_all_lt h'.2.2.1, ih h'.2.2.2⟩

/-- The host's only way to change the image keeps its canonical form. -/
theorem Memory.writeByte_wf {m : Memory} (a b : Byte) (h : m.wf = true) : (m.writeByte a b).wf = true := by
  unfold Memory.writeByte
  split
  · exact Memory.erase_wf h
  · next hb => exact Memory.insert_wf a.isLt hb h

theorem Memory.lookup_insert (m : Memory) (a x : Nat) (b : Byte) :
    (Memory.insert m a b).lookup x = if x = a then b else m.lookup x := by
  induction m with
  | nil => simp [Memory.insert, Memory.lookup, eq_comm]
  | cons c rest ih =>
    obtain ⟨k, v⟩ := c
    simp only [Memory.insert]
    split
    · simp [Memory.lookup, eq_comm]
    · split
      · next h =>
        subst h
        by_cases hx : a = x
        · simp [Memory.lookup, hx]
        · simp [Memory.lookup, hx, Ne.symm hx]
      · next h =>
        by_cases hx : k = x
        · simp [Memory.lookup, hx, hx ▸ Ne.symm h]
        · simp [Memory.lookup, hx, ih]

theorem Memory.lookup_erase {m : Memory} (a x : Nat) (h : m.wf = true) :
    (Memory.erase m a).lookup x = if x = a then Memory.unlistedByte else m.lookup x := by
  induction m with
  | nil => simp [Memory.erase]
  | cons c rest ih =>
    obtain ⟨k, v⟩ := c
    have h' := Memory.wf_cons.mp h
    simp only [Memory.erase]
    split
    · next hk =>
      subst hk
      by_cases hx : x = k
      · simpa [hx] using Memory.lookup_of_all_lt h'.2.2.1
      · simp [Memory.lookup, hx, Ne.symm hx]
    · next hk =>
      by_cases hx : k = x
      · simp [Memory.lookup, hx, hx ▸ hk]
      · simp [Memory.lookup, hx, ih h'.2.2.2]

/-- The image after a reset machine: nothing listed, in canonical form. -/
theorem reset_image_wf : State.reset.image.wf = true := rfl

end Sys2Proof.Machine
end

