-- ==== Sys2Proof/Laws/PerInstr.lean ====
section
/-! SUPPORT. One fact of the syntax, per constructor: the word of a command selects that command's own row of the opcode
table (spec/30_encoding.md R65). -/

namespace Sys2Proof.Laws.EncodingRow

/-- The word of the command selects a row of R65's table, and the row bears the command's mnemonic. -/
def Statement (i : Instr) : Prop :=
  ∃ row ∈ opcodeTable, row.mnemonic = i.mnemonic ∧ rowSelected (encode i) row = true

theorem decodeCal : Statement .decodeCal :=
  ⟨⟨"DECODE_CAL", 0x1000000000000000#64, 0xFFFFFFFFFFFFFFFF#64⟩, by decide, rfl, by decide⟩

theorem compT (adc : BitVec 20) : Statement (.compT adc) := by
  refine ⟨⟨"COMP_T", 0x2000000000000000#64, 0xFFFFFFFFFFF00000#64⟩, by decide, rfl, ?_⟩
  simp only [rowSelected, encode, packCommand, beq_iff_eq]
  apply BitVec.eq_of_getLsbD_eq
  intro k hk
  simp only [BitVec.getLsbD_and, BitVec.getLsbD_or, BitVec.getLsbD_shiftLeft, BitVec.getLsbD_setWidth]
  interval_cases k <;> simp

theorem compP (adc : BitVec 20) : Statement (.compP adc) := by
  refine ⟨⟨"COMP_P", 0x3000000000000000#64, 0xFFFFFFFFFFF00000#64⟩, by decide, rfl, ?_⟩
  simp only [rowSelected, encode, packCommand, beq_iff_eq]
  apply BitVec.eq_of_getLsbD_eq
  intro k hk
  simp only [BitVec.getLsbD_and, BitVec.getLsbD_or, BitVec.getLsbD_shiftLeft, BitVec.getLsbD_setWidth]
  interval_cases k <;> simp

theorem compH (adc : BitVec 16) : Statement (.compH adc) := by
  refine ⟨⟨"COMP_H", 0x4000000000000000#64, 0xFFFFFFFFFFFF0000#64⟩, by decide, rfl, ?_⟩
  simp only [rowSelected, encode, packCommand, beq_iff_eq]
  apply BitVec.eq_of_getLsbD_eq
  intro k hk
  simp only [BitVec.getLsbD_and, BitVec.getLsbD_or, BitVec.getLsbD_shiftLeft, BitVec.getLsbD_setWidth]
  interval_cases k <;> simp

theorem setTfine (tf : BitVec 32) : Statement (.setTfine tf) := by
  refine ⟨⟨"SET_TFINE", 0x5000000000000000#64, 0xFFFFFFFF00000000#64⟩, by decide, rfl, ?_⟩
  simp only [rowSelected, encode, packCommand, beq_iff_eq]
  apply BitVec.eq_of_getLsbD_eq
  intro k hk
  simp only [BitVec.getLsbD_and, BitVec.getLsbD_or, BitVec.getLsbD_shiftLeft, BitVec.getLsbD_setWidth]
  interval_cases k <;> simp

theorem compRaw : Statement .compRaw :=
  ⟨⟨"COMP_RAW", 0x6000000000000000#64, 0xFFFFFFFFFFFFFFFF#64⟩, by decide, rfl, by decide⟩

end Sys2Proof.Laws.EncodingRow
end

