-- ==== Sys2Proof/Tests/Slice0.lean ====
section
/-! SUPPORT. Tests. Every expected value is taken from the spec: spec/95_test_vectors.md (L1, L2, the images of CAL-A and RAW-A),
spec/30_encoding.md R69 and R73, or a rule named at the test. The theorems named `witness_` show concrete states and operands
that meet the hypotheses of the statement they name. -/

namespace Sys2Proof.Tests

open Sys2Proof Sys2Proof.Machine

/-! ## Small states -/

/-- A field of the next state; none where the outcome is a fault or a refusal. -/
def seen {α : Type} (f : State → α) : Host.Outcome State Fault Refusal → Option α
  | .next t => some (f t)
  | .fault _ => none
  | .refused _ => none

/-- After reset, with CAL-A decoded. -/
def calState : State := { State.reset with cal := calA, status := 0x01#32 }

/-- After reset, with one move of the host to come and a STATUS. -/
def facing (status : BitVec 32) (m : HostMove) : State := { State.reset with status := status, pending := [m] }

/-- CAL-A decoded, and T_FINE as given. -/
def calStateAt (tf : Int) : State := { calState with tFine := BitVec.ofInt 32 tf }

/-- An image from the bytes the host supplies, the others as never supplied. -/
def imageOf (bytes : List (Byte × Byte)) : Memory := bytes.foldl (fun m c => m.writeByte c.1 c.2) []

/-- An image whose listed addresses all hold one byte. -/
def filled (b : Byte) (addresses : List Nat) : Memory := imageOf (addresses.map (fun a => (BitVec.ofNat 8 a, b)))

/-- The 32 calibration bytes of CAL-A (spec/95_test_vectors.md), temperature and pressure, then humidity. -/
def calABytes : List (Byte × Byte) :=
  [(0x88, 0x70), (0x89, 0x6B), (0x8A, 0x43), (0x8B, 0x67), (0x8C, 0x18), (0x8D, 0xFC), (0x8E, 0x7D), (0x8F, 0x8E),
   (0x90, 0x43), (0x91, 0xD6), (0x92, 0xD0), (0x93, 0x0B), (0x94, 0x27), (0x95, 0x0B), (0x96, 0x8C), (0x97, 0x00),
   (0x98, 0xF9), (0x99, 0xFF), (0x9A, 0x8C), (0x9B, 0x3C), (0x9C, 0xF8), (0x9D, 0xC6), (0x9E, 0x70), (0x9F, 0x17)] ++
  [(0xA1, 0x4B), (0xE1, 0x6A), (0xE2, 0x01), (0xE3, 0x00), (0xE4, 0x13), (0xE5, 0x29), (0xE6, 0x03), (0xE7, 0x1E)]

/-- The RAW-A bytes (spec/95_test_vectors.md). -/
def rawABytes : List (Byte × Byte) :=
  [(0xF7, 0x65), (0xF8, 0x5A), (0xF9, 0xC5), (0xFA, 0x7E), (0xFB, 0xED), (0xFC, 0x0F), (0xFD, 0x75), (0xFE, 0x30)]

/-- CAL-A decoded, and the RAW-A bytes in the image. -/
def rawState : State := { calState with image := imageOf rawABytes }

/-! ## WellFormed: each check refuses a line that breaks it, and admits the bound (R69) -/

theorem test_wf_adc20 : SourceLine.wellFormed (.compT (.dec false 1048576)) = false ∧
    SourceLine.wellFormed (.compT (.dec true 1)) = false ∧ SourceLine.wellFormed (.compT (.hex 0x100000)) = false ∧
    SourceLine.wellFormed (.compP (.dec false 1048576)) = false ∧
    SourceLine.wellFormed (.compT (.dec false 1048575)) = true := by decide

theorem test_wf_adc16 : SourceLine.wellFormed (.compH (.dec false 65536)) = false ∧
    SourceLine.wellFormed (.compH (.dec true 0)) = false ∧ SourceLine.wellFormed (.compH (.hex 0xFFFF)) = true := by decide

theorem test_wf_s32 : SourceLine.wellFormed (.setTfine (.dec false 2147483648)) = false ∧
    SourceLine.wellFormed (.setTfine (.dec true 2147483649)) = false ∧
    SourceLine.wellFormed (.setTfine (.hex 0x100000000)) = false ∧
    SourceLine.wellFormed (.setTfine (.dec true 2147483648)) = true := by decide

theorem test_wf_measure : SourceLine.wellFormed (.measure (.dec false 1048576) (.dec false 0) (.dec false 0)) = false ∧
    SourceLine.wellFormed (.measure (.dec false 0) (.dec false 1048576) (.dec false 0)) = false ∧
    SourceLine.wellFormed (.measure (.dec false 0) (.dec false 0) (.dec false 65536)) = false ∧
    SourceLine.wellFormed (.measure (.dec false 0) (.dec false 0) (.dec false 65535)) = true := by decide

theorem test_wf_comp_ph : SourceLine.wellFormed (.compPh (.dec false 2147483648) (.dec false 0) (.dec false 0)) = false ∧
    SourceLine.wellFormed (.compPh (.dec true 1) (.dec true 1) (.dec false 0)) = false ∧
    SourceLine.wellFormed (.compPh (.dec true 1) (.dec false 0) (.hex 0x10000)) = false ∧
    SourceLine.wellFormed (.compPh (.dec true 1) (.dec false 0) (.hex 0xFFFF)) = true := by decide

/-! ## Decoding: words of L2.1, each written out from its fields OP, RSV and ARG -/

theorem test_decode_decode_cal : decodeTableWord 64 (0x1 * 2 ^ 60) = some .decodeCal := by decide

theorem test_decode_comp_t : decodeTableWord 64 0x200000000007EED0 = some (.compT 519888#20) ∧
    decodeTableWord 64 0x20000000000FFFFF = some (.compT 1048575#20) := by decide

theorem test_decode_comp_p : decodeTableWord 64 0x30000000000655AC = some (.compP 415148#20) := by decide

theorem test_decode_comp_h : decodeTableWord 64 0x40000000000061A8 = some (.compH 25000#16) ∧
    decodeTableWord 64 0x400000000000FFFF = some (.compH 65535#16) := by decide

theorem test_decode_set_tfine : decodeTableWord 64 0x50000000FFFC88C5 = some (.setTfine (BitVec.ofInt 32 (-227131))) ∧
    decodeTableWord 64 0x5000000080000000 = some (.setTfine (BitVec.ofInt 32 (-2147483648))) := by decide

theorem test_decode_comp_raw : decodeTableWord 64 0x6000000000000000 = some .compRaw := by decide

theorem test_decode_illegal_opcode : decodeTableWord 64 0 = none ∧ decodeTableWord 64 0x7000000000000000 = none ∧
    decodeTableWord 64 0xF000000000000000 = none := by decide

theorem test_decode_illegal_argument : decodeTableWord 64 0x2000000000100000 = none ∧
    decodeTableWord 64 0x4000000000010000 = none ∧ decodeTableWord 64 0x1000000000000001 = none ∧
    decodeTableWord 64 0x6000000000000001 = none := by decide

theorem test_decode_illegal_reserved : decodeTableWord 64 0x2000000100000000 = none ∧
    decodeTableWord 64 0x5800000000000000 = none := by decide

/-! ## The assembler (R69 to R73) -/

theorem test_assemble_text : assembleText "COMP_T 519888 ; a comment".toList = some [0x200000000007EED0#64] ∧
    assembleText "SET_TFINE -227131".toList = some [0x50000000FFFC88C5#64] ∧
    assembleText "SET_TFINE 0xFFFC88C5".toList = some [0x50000000FFFC88C5#64] := by decide

theorem test_assemble_rejects : assembleText "COMP_T 1048576".toList = none ∧ assembleText "COMP_T -1".toList = none ∧
    assembleText "COMP_H 65536".toList = none ∧ assembleText "SET_TFINE 2147483648".toList = none := by decide

theorem test_assemble_measure : assembleText "MEASURE 519888, 415148, 30000".toList =
    some [0x200000000007EED0#64, 0x30000000000655AC#64, 0x4000000000007530#64] := by decide

/-! ## One step of each instruction (L2.2 to L2.7) -/

/-- The CAL-A image decodes to the CAL-A table. -/
theorem test_decode_cal : seen State.cal (exec .decodeCal { State.reset with image := imageOf calABytes }) = some calA := by
  decide

/-- R78: patterns 0x9CA and 0xF35. -/
theorem test_decode_cal_signed_nibbles :
    seen (fun t => (t.cal.digH4.toInt, t.cal.digH5.toInt))
      (exec .decodeCal { State.reset with image := imageOf [(0xE4, 0x9C), (0xE5, 0x5A), (0xE6, 0xF3)] }) =
    some (-1590, -203) := by decide

/-- L1.2, R99. -/
theorem test_comp_t : seen (fun t => (t.tOut.toInt, t.tFine.toInt, t.status)) (exec (.compT 519888#20) calState) =
    some (2508, 128422, 0x07#32) := by decide

/-- L1.7, R96: a logical shift would differ. -/
theorem test_comp_t_negative : seen (fun t => (t.tOut.toInt, t.tFine.toInt)) (exec (.compT 0#20) calState) =
    some (-14088, -721301) := by decide

/-- R109. -/
theorem test_comp_p : seen (fun t => (t.pOut.toNat, t.status)) (exec (.compP 415148#20) (calStateAt 128422)) =
    some (25767233, 0x09#32) := by decide

/-- R108: a negative dividend, where floor and truncation differ. -/
theorem test_comp_p_truncates : seen (fun t => t.pOut.toNat) (exec (.compP 0xFFFFF#20) (calStateAt 128422)) =
    some 4293269792 := by decide

/-- R117. -/
theorem test_comp_h : seen (fun t => (t.hOut.toNat, t.status)) (exec (.compH 30000#16) (calStateAt 128422)) =
    some (56317, 0x11#32) := by decide

/-- R116: the lower clamp for an in-range input. -/
theorem test_comp_h_clamps : seen (fun t => t.hOut.toNat) (exec (.compH 20000#16) (calStateAt 128422)) = some 0 := by decide

/-- L2.6: legal with CAL_VALID 0. -/
theorem test_set_tfine : seen (fun t => (t.tFine, t.status)) (exec (.setTfine 0x80000000#32) State.reset) =
    some (0x80000000#32, 0x02#32) := by decide

/-- R124. -/
theorem test_comp_raw :
    seen (fun t => (t.tFine.toInt, t.tOut.toInt, t.pOut.toNat, t.hOut.toNat, t.status)) (exec .compRaw rawState) =
    some (128422, 2508, 25767233, 56317, 0x1F#32) := by decide

/-- L2.7, last row. -/
theorem test_comp_raw_all_ones :
    seen (fun t => (t.tOut.toInt, t.pOut.toNat, t.hOut.toNat))
      (exec .compRaw { calState with image := filled 0xFF#8 (bytesReadBy .compRaw) }) =
    some (18755, 4292524766, 102400) := by decide

/-! ## Events, the read port, reset, and a command placed next (L2.8 to L2.10) -/

theorem test_illegal_word : seen State.status (step (facing 0#32 (.command 0x7000000000000000#64))) = some 0x20#32 := by decide

/-- L2.8, R129: the fault is recorded, the command completes, and ILL stays as it was. -/
theorem test_uninit_cal :
    seen (fun t => (t.modelFaults, t.status)) (step (facing 0#32 (.command 0x200000000007EED0#64))) =
      some ([.uninitCal], 0x06#32) ∧
    seen (fun t => (t.modelFaults, t.status)) (step (facing 0x20#32 (.command 0x6000000000000000#64))) =
      some ([.uninitCal], 0x3E#32) := by decide

/-- L2.8: the record holds the index, and no register changes. -/
theorem test_unwritten_read :
    seen (fun t => (t.modelFaults, t.status)) (step (facing 0#32 (.read 0x01#8))) =
      some ([.unwrittenRead 0x01#8], 0#32) ∧
    seen (fun t => (t.modelFaults, t.cal)) (step (facing 0#32 (.read 0x10#8))) =
      some ([.unwrittenRead 0x10#8], State.reset.cal) := by decide

/-- R17: a model fault is never cleared, not by reset either. -/
theorem test_fault_record_survives_reset :
    seen State.modelFaults (step { facing 0#32 .reset with modelFaults := [.uninitCal] }) = some [.uninitCal] := by decide

theorem test_read_cal : seen State.readData (step { calState with pending := [.read 0x12#8] }) = some (some 0xFFFFFC18#32) ∧
    seen State.readData (step { calState with pending := [.read 0x13#8] }) = some (some 0x00008E7D#32) := by decide

theorem test_reset : seen (fun t => (t.status, t.tFine, t.image)) (step { rawState with tFine := 5#32, pending := [.reset] }) =
    some (0#32, 0#32, rawState.image) := by decide

theorem test_withFetchWord :
    seen (fun t => (t.tFine, t.status, t.pending)) (step (State.reset.withFetchWord 64 0x500000000001F5A6)) =
    some (128422#32, 0x02#32, []) := by decide

/-! ## Witnesses: states and operands that meet the hypotheses of each statement that has some -/

/-- A word the decoder refuses decodes to no command. -/
theorem illegal_of_error {w : Word64} {e : IllegalWord} (h : decode w = .error e) : ∀ i, decode w ≠ .ok i := by simp [h]

/-- Words that meet "decodes to nothing", one for each cause of R66. -/
theorem witness_illegal_words : (∀ i, decode 0x0000000000000000#64 ≠ .ok i) ∧ (∀ i, decode 0xF000000000000000#64 ≠ .ok i) ∧
    (∀ i, decode 0x2000000100000000#64 ≠ .ok i) ∧ (∀ i, decode 0x4000000000010000#64 ≠ .ok i) :=
  ⟨illegal_of_error (e := .opcode) rfl, illegal_of_error (e := .opcode) rfl, illegal_of_error (e := .reserved) rfl,
   illegal_of_error (e := .argument) rfl⟩

theorem witness_EncodeOfDecode : decode 0x20000000000FFFFF#64 = .ok (.compT 0xFFFFF#20) := rfl

theorem witness_DecodeFollowsOpcodeTable : ⟨"COMP_H", 0x4000000000000000#64, 0xFFFFFFFFFFFF0000#64⟩ ∈ opcodeTable ∧
    rowSelected 0x400000000000FFFF#64 ⟨"COMP_H", 0x4000000000000000#64, 0xFFFFFFFFFFFF0000#64⟩ = true := by decide

theorem witness_IllegalWordsAreExactlyThese : decode 0x7000000000000000#64 = .error .opcode ∧
    decode 0x2000000000100000#64 = .error .argument ∧ decode 0x5800000000000000#64 = .error .reserved := ⟨rfl, rfl, rfl⟩

theorem witness_OperandAssembly : decode 0x20000000000FFFFF#64 = .ok (.compT 0xFFFFF#20) ∧
    decode 0x3000000000000000#64 = .ok (.compP 0#20) ∧ decode 0x400000000000FFFF#64 = .ok (.compH 0xFFFF#16) ∧
    decode 0x5000000080000000#64 = .ok (.setTfine 0x80000000#32) ∧ decode 0x1000000000000000#64 = .ok .decodeCal ∧
    decode 0x6000000000000000#64 = .ok .compRaw := ⟨rfl, rfl, rfl, rfl, rfl, rfl⟩

theorem witness_StepRunsTheDecodedCommand :
    (facing 0#32 (.command 0x500000000001F5A6#64)).pending = .command 0x500000000001F5A6#64 :: [] ∧
    decode 0x500000000001F5A6#64 = .ok (.setTfine 128422#32) := ⟨rfl, rfl⟩

theorem witness_StepServesEveryMove : State.reset.pending = [] ∧
    (facing 0#32 (.command 0#64)).pending = .command 0#64 :: [] ∧ (∀ i, decode 0#64 ≠ .ok i) ∧
    (facing 0#32 (.read 0x04#8)).pending = .read 0x04#8 :: [] ∧ readPort 0x04#8 (facing 0#32 (.read 0x04#8)) = .ok 0#32 ∧
    (facing 0#32 (.supply 0xFF#8 0x01#8)).pending = .supply 0xFF#8 0x01#8 :: [] ∧
    (facing 0#32 .reset).pending = .reset :: [] ∧ (facing 0#32 (.read 0x03#8)).pending = .read 0x03#8 :: [] ∧
    readPort 0x03#8 (facing 0#32 (.read 0x03#8)) = .error (.unwrittenRead 0x03#8) :=
  ⟨rfl, rfl, illegal_of_error (e := .opcode) rfl, rfl, rfl, rfl, rfl, rfl, rfl⟩

theorem witness_IllegalCommandSetsOnlyIll :
    (facing 0x20#32 (.command 0x4000000000010000#64)).pending = .command 0x4000000000010000#64 :: [] ∧
    (∀ i, decode 0x4000000000010000#64 ≠ .ok i) ∧ (facing 0x20#32 (.read 0x00#8)).status.getLsbD 5 = true ∧
    (seen State.status (step (facing 0x20#32 (.read 0x00#8)))).isSome = true ∧
    (facing 0x20#32 .reset).status.getLsbD 5 = true ∧ (seen State.status (step (facing 0x20#32 .reset))).isSome = true :=
  ⟨rfl, illegal_of_error (e := .argument) rfl, by decide, by decide, by decide, by decide⟩

/-- Every command gives a next state from a calibrated state, and so do a read, a byte supplied and reset. -/
theorem witness_every_command_completes :
    (∀ i ∈ [Instr.decodeCal, .compT 0xFFFFF#20, .compP 0xFFFFF#20, .compH 0xFFFF#16, .setTfine 0#32, .compRaw],
      (seen State.status (exec i calState)).isSome = true) ∧
    ∀ m ∈ [HostMove.read 0x00#8, .supply 0x00#8 0xFF#8, .reset],
      (seen State.status (performMove m calState)).isSome = true := by decide

theorem witness_ReadPortMap : calState.status.getLsbD 0 = true ∧
    (facing 0x1C#32 .reset).status.getLsbD 2 = true ∧ (facing 0x1C#32 .reset).status.getLsbD 3 = true ∧
    (facing 0x1C#32 .reset).status.getLsbD 4 = true := by decide

theorem witness_ReadHasNoSideEffect : (facing 0#32 (.read 0xFF#8)).pending = .read 0xFF#8 :: [] ∧
    readPort 0xFF#8 (facing 0#32 (.read 0xFF#8)) = .ok 0#32 := ⟨rfl, rfl⟩

/-- The four ends of the two reserved ranges. -/
theorem witness_ReservedIndexReadsZero : ∀ index ∈ [0x05#8, 0x0F#8, 0x22#8, 0xFF#8],
    (facing 0#32 (.read index)).pending = .read index :: [] ∧
    ((0x05 ≤ index.toNat ∧ index.toNat ≤ 0x0F) ∨ 0x22 ≤ index.toNat) := by decide

/-- Each output, the two ends of the coefficients, and the two indices that always have a value. -/
theorem witness_UnwrittenReadFaults :
    (∀ index ∈ [0x00#8, 0x01#8, 0x02#8, 0x03#8, 0x04#8, 0x10#8, 0x21#8],
      (facing 0#32 (.read index)).pending = .read index :: []) ∧
    ((0x01#8).toNat = 0x01 ∧ (facing 0#32 (.read 0x01#8)).status.getLsbD 2 = false) ∧
    ((0x02#8).toNat = 0x02 ∧ (facing 0#32 (.read 0x02#8)).status.getLsbD 3 = false) ∧
    ((0x03#8).toNat = 0x03 ∧ (facing 0#32 (.read 0x03#8)).status.getLsbD 4 = false) ∧
    (0x10 ≤ (0x10#8).toNat ∧ (0x21#8).toNat ≤ 0x21 ∧ (facing 0#32 (.read 0x21#8)).status.getLsbD 0 = false) := by decide

theorem witness_DecodeCalCornerCases :
    (∀ a ∈ bytesReadBy .decodeCal, Pseudocode.byteAt (filled 0xFF#8 (bytesReadBy .decodeCal)) a = 0xFF) ∧
    (∀ a ∈ bytesReadBy .decodeCal, Pseudocode.byteAt (imageOf [(0xA0, 0xAB), (0xE8, 0xCD)]) a = 0x00) ∧
    (∀ a ∈ bytesReadBy .decodeCal,
      Pseudocode.byteAt (imageOf [(0xA0, 0xAB), (0xE8, 0xCD)]) a = Pseudocode.byteAt State.reset.image a) := by decide

theorem witness_DecodeCalCornerCases_packed :
    Pseudocode.byteAt (imageOf [(0xE4, 0x80), (0xE6, 0x80)]) 0xE4 = 0x80 ∧
    Pseudocode.byteAt (imageOf [(0xE4, 0x80), (0xE6, 0x80)]) 0xE5 = 0x00 ∧
    Pseudocode.byteAt (imageOf [(0xE4, 0x80), (0xE6, 0x80)]) 0xE6 = 0x80 ∧
    Pseudocode.byteAt (imageOf [(0xE4, 0x7F), (0xE5, 0xFF), (0xE6, 0x7F)]) 0xE4 = 0x7F ∧
    Pseudocode.byteAt (imageOf [(0xE4, 0x7F), (0xE5, 0xFF), (0xE6, 0x7F)]) 0xE5 = 0xFF ∧
    Pseudocode.byteAt (imageOf [(0xE4, 0x7F), (0xE5, 0xFF), (0xE6, 0x7F)]) 0xE6 = 0x7F := by decide

theorem witness_PackedHumidityExample :
    Pseudocode.byteAt (imageOf [(0xE4, 0x12), (0xE5, 0x3A), (0xE6, 0x04)]) 0xE4 = 0x12 ∧
    Pseudocode.byteAt (imageOf [(0xE4, 0x12), (0xE5, 0x3A), (0xE6, 0x04)]) 0xE5 = 0x3A ∧
    Pseudocode.byteAt (imageOf [(0xE4, 0x12), (0xE5, 0x3A), (0xE6, 0x04)]) 0xE6 = 0x04 := by decide

theorem witness_OnlyDecodeCalWritesCal : Instr.setTfine 0#32 ≠ .decodeCal ∧ Instr.compRaw ≠ .decodeCal ∧
    (seen State.cal (exec .compRaw calState)).isSome = true ∧
    (seen State.cal (step (facing 0#32 (.command 0x1000000000000000#64)))).isSome = true := by decide

/-- For every statement whose hypotheses are CAL_VALID 1 (or, for its other clause, CAL_VALID 0). -/
theorem witness_calibrated_and_not : calState.status.getLsbD 0 = true ∧ State.reset.status.getLsbD 0 = false := by decide

/-- Both of CompTScaling's conditions, at the largest T_FINE that CAL-A and a code give. -/
theorem witness_CompTScaling : seen (fun t => (decide (-(2 ^ 31) ≤ 5 * t.tFine.toInt + 128), decide (|t.tFine.toInt| ≤ 429496703),
    decide (5 * t.tFine.toInt + 128 < 2 ^ 31))) (exec (.compT 0xFFFFF#20) calState) = some (true, true, true) := by decide

/-- CAL-A decoded, but for its temperature coefficients. -/
def otherT (t1 t2 t3 : BitVec 16) : State := { calState with cal := { calA with digT1 := t1, digT2 := t2, digT3 := t3 } }

theorem witness_CompTVectors : calState.status.getLsbD 0 = true ∧ calState.cal = calA ∧
    (otherT 0#16 calA.digT2 calA.digT3).status.getLsbD 0 = true ∧
    (otherT 0#16 calA.digT2 calA.digT3).cal = { calA with digT1 := 0#16 } ∧
    (otherT 0xFFFF#16 0x7FFF#16 0x7FFF#16).status.getLsbD 0 = true ∧
    (otherT 0xFFFF#16 0x7FFF#16 0x7FFF#16).cal.digT1.toNat = 65535 ∧
    (otherT 0xFFFF#16 0x7FFF#16 0x7FFF#16).cal.digT2.toInt = 32767 ∧
    (otherT 0xFFFF#16 0x7FFF#16 0x7FFF#16).cal.digT3.toInt = 32767 := by decide

/-- CAL-A with dig_P1 = 0, and T_FINE 128422 (L1.5). -/
def zeroP1 : State := { calStateAt 128422 with cal := { calA with digP1 := 0#16 } }

theorem witness_ZeroDenominatorGivesSentinel : zeroP1.status.getLsbD 0 = true ∧ zeroP1.cal.digP1 = 0#16 ∧
    Pseudocode.pressureVar1 zeroP1.cal.digP1.toNat zeroP1.cal.digP2.toInt zeroP1.cal.digP3.toInt zeroP1.tFine.toInt = 0 := by
  decide

/-- Every T_FINE of the pressure and humidity vectors, with CAL-A decoded. -/
theorem witness_CompPVectors_CompHVectors : ∀ tf ∈ [128422, 0, -227131, 2147483647, -2147483648],
    (calStateAt tf).tFine.toInt = tf ∧ (calStateAt tf).cal = calA ∧ (calStateAt tf).status.getLsbD 0 = true := by decide

/-- CAL-A with R78's negative dig_H4 and dig_H5, and T_FINE 128422. -/
def negativeH : State :=
  { calStateAt 128422 with cal := { calA with digH4 := BitVec.ofInt 12 (-1590), digH5 := BitVec.ofInt 12 (-203) } }

theorem witness_CompHVectors_signed : negativeH.status.getLsbD 0 = true ∧ negativeH.tFine.toInt = 128422 ∧
    negativeH.cal = { calA with digH4 := BitVec.ofInt 12 (-1590), digH5 := BitVec.ofInt 12 (-203) } := by decide

theorem witness_DatapathPrimitives : (32 = 32 ∨ 32 = 64) ∧ (64 = 32 ∨ 64 = 64) ∧ 31 < 32 ∧ 63 < 64 ∧
    BitVec.allOnes 64 ≠ 0#64 := by decide

theorem witness_CompRawCornerCases :
    (∀ a ∈ [0xF7, 0xF8, 0xFA, 0xFB, 0xFD, 0xFE], Pseudocode.byteAt
      (imageOf [(0xF7, 0x65), (0xF8, 0x5A), (0xF9, 0xCF), (0xFA, 0x7E), (0xFB, 0xED), (0xFC, 0x00), (0xFD, 0x75), (0xFE, 0x30)]) a =
      Pseudocode.byteAt rawState.image a) ∧
    (∀ a ∈ [0xF9, 0xFC], Pseudocode.byteAt
      (imageOf [(0xF7, 0x65), (0xF8, 0x5A), (0xF9, 0xCF), (0xFA, 0x7E), (0xFB, 0xED), (0xFC, 0x00), (0xFD, 0x75), (0xFE, 0x30)]) a / 16 =
      Pseudocode.byteAt rawState.image a / 16) ∧
    (∀ a ∈ bytesReadBy .compRaw, Pseudocode.byteAt calState.image a = 0x00) ∧
    (∀ a ∈ bytesReadBy .compRaw, Pseudocode.byteAt (filled 0xFF#8 (bytesReadBy .compRaw)) a = 0xFF) ∧
    ({ rawState with cal := { calA with digP1 := 0#16 } } : State).cal.digP1 = 0#16 := by decide

theorem witness_CompRawExample : rawState.status.getLsbD 0 = true ∧ rawState.cal = calA ∧
    Pseudocode.byteAt rawState.image 0xF7 = 0x65 ∧ Pseudocode.byteAt rawState.image 0xF8 = 0x5A ∧
    Pseudocode.byteAt rawState.image 0xF9 = 0xC5 ∧ Pseudocode.byteAt rawState.image 0xFA = 0x7E ∧
    Pseudocode.byteAt rawState.image 0xFB = 0xED ∧ Pseudocode.byteAt rawState.image 0xFC = 0x0F ∧
    Pseudocode.byteAt rawState.image 0xFD = 0x75 ∧ Pseudocode.byteAt rawState.image 0xFE = 0x30 := by decide

theorem witness_EventsAreExactlyThese : (facing 0#32 (.command 0#64)).pending = .command 0#64 :: [] ∧
    (∀ i, decode 0#64 ≠ .ok i) ∧ decode 0x6000000000000000#64 = .ok .compRaw ∧
    seen State.modelFaults (step (facing 0#32 (.command 0x6000000000000000#64))) = some [.uninitCal] ∧
    seen State.modelFaults (step (facing 0#32 (.read 0x21#8))) = some [.unwrittenRead 0x21#8] :=
  ⟨rfl, illegal_of_error (e := .opcode) rfl, rfl, rfl, rfl⟩

/-- Each command's word, and a state that faces one, with CAL_VALID 1 and with CAL_VALID 0. -/
theorem witness_EveryLegalCommandCompletes :
    decode 0x1000000000000000#64 = .ok .decodeCal ∧ decode 0x200000000007EED0#64 = .ok (.compT 519888#20) ∧
    decode 0x30000000000655AC#64 = .ok (.compP 415148#20) ∧ decode 0x40000000000061A8#64 = .ok (.compH 25000#16) ∧
    decode 0x500000000001F5A6#64 = .ok (.setTfine 128422#32) ∧ decode 0x6000000000000000#64 = .ok .compRaw ∧
    (facing 0x01#32 (.command 0x6000000000000000#64)).pending = .command 0x6000000000000000#64 :: [] ∧
    (facing 0x01#32 (.command 0x6000000000000000#64)).status.getLsbD 0 = true ∧
    (facing 0x00#32 (.command 0x6000000000000000#64)).pending = .command 0x6000000000000000#64 :: [] ∧
    (facing 0x00#32 (.command 0x6000000000000000#64)).status.getLsbD 0 = false :=
  ⟨rfl, rfl, rfl, rfl, rfl, rfl, rfl, rfl, rfl, rfl⟩

/-- A command that is none of a register's writers, for each register. -/
theorem witness_EachRegisterHasItsWriters : (seen State.tFine (exec (.compP 0#20) calState)).isSome = true ∧
    (∀ adc, Instr.compP 0#20 ≠ .compT adc) ∧ (∀ tf, Instr.compP 0#20 ≠ .setTfine tf) ∧ Instr.compP 0#20 ≠ .compRaw ∧
    (∀ adc, Instr.setTfine 0#32 ≠ .compP adc) ∧ (∀ adc, Instr.setTfine 0#32 ≠ .compH adc) :=
  ⟨by decide, by simp, by simp, by simp, by simp, by simp⟩

/-- Two different states with the inputs R42 names the same. -/
theorem witness_CompensationIsDeterminedByItsInputs : calState ≠ rawState ∧ calState.cal = rawState.cal ∧
    calState.tFine = rawState.tFine ∧ calState.status.getLsbD 0 = true ∧ rawState.status.getLsbD 0 = true := by decide

theorem witness_UnreadBytesHaveNoEffect : (∀ i ∈ [Instr.decodeCal, .compT 0#20, .compRaw], ∀ a ∈ bytesReadBy i,
      Pseudocode.byteAt (imageOf [(0xA0, 0xAB), (0xD0, 0x60), (0xFF, 0x01)]) a = Pseudocode.byteAt calState.image a) ∧
    rawState.image.wf = true ∧ (0xA0#8).toNat ∉ bytesReadBy .decodeCal ∧ (0xA0#8).toNat ∉ bytesReadBy .compRaw := by decide

theorem witness_SuppliedByteReadsBack : ({ rawState with pending := [.supply 0xFE#8 0x00#8] } : State).pending =
    .supply 0xFE#8 0x00#8 :: [] ∧ ({ rawState with pending := [.supply 0xFE#8 0x00#8] } : State).image.wf = true := by decide

/-- The outputs, and the ends of the coefficients, among the indices that fault after reset. -/
theorem witness_ResetLeavesTheResetState : ({ rawState with pending := [.reset] } : State).pending = .reset :: [] ∧
    ∀ index ∈ [0x01#8, 0x03#8, 0x10#8, 0x21#8],
      (0x01 ≤ index.toNat ∧ index.toNat ≤ 0x03) ∨ (0x10 ≤ index.toNat ∧ index.toNat ≤ 0x21) := by decide

/-- For each clause: a reset; CAL_VALID 0, and TFINE_SET and T_FINE 0, with a step that completes; CAL_VALID 1 with T_FINE 0. -/
theorem witness_StateAfterReset : (facing 0x3F#32 .reset).pending = .reset :: [] ∧
    (facing 0#32 (.command 0x5000000000000000#64)).status.getLsbD 0 = false ∧
    (facing 0#32 (.command 0x5000000000000000#64)).status.getLsbD 1 = false ∧
    (facing 0#32 (.command 0x5000000000000000#64)).tFine = 0#32 ∧
    (seen State.status (step (facing 0#32 (.command 0x5000000000000000#64)))).isSome = true ∧
    calState.status.getLsbD 0 = true ∧ calState.tFine = 0#32 := by decide

/-- A calibrated state with bytes in the image meets the invariant, and a step from it completes. -/
theorem witness_StepKeepsTheInvariant : Inv { rawState with pending := [.command 0x6000000000000000#64] } ∧
    (seen State.status (step { rawState with pending := [.command 0x6000000000000000#64] })).isSome = true := by decide

/-- Program PR1 followed by reads of every result keeps the host's duties from reset. -/
theorem witness_HostThatKeepsItsDutiesNeverFaults : hostObeys 0#32
    [.command 0x1000000000000000#64, .command 0x200000000007EED0#64, .command 0x30000000000655AC#64,
     .command 0x4000000000007530#64, .read 0x01#8, .read 0x02#8, .read 0x03#8, .read 0x21#8, .command 0#64, .reset] = true := by
  decide

theorem witness_AssemblerProducesOnlyLegalWords : assembleLine (.compPh (.dec true 2147483648) (.hex 0xFFFFF) (.dec false 0)) =
    some [0x5000000080000000#64, 0x30000000000FFFFF#64, 0x4000000000000000#64] ∧
    (2 ^ 20 - 1 < 2 ^ 20 ∧ 2 ^ 16 - 1 < 2 ^ 16 ∧ 2 ^ 31 - 1 < 2 ^ 31 ∧ 0 < 2 ^ 31 ∧ 2 ^ 32 - 1 < 2 ^ 32) := by decide

theorem witness_InstancesShareNothing : [State.reset, calState][1]? = some calState ∧ (0 : Nat) ≠ 1 ∧
    step calState = .next calState ∧ systemStep 1 [State.reset, calState] = .next [State.reset, calState] :=
  ⟨rfl, by decide, rfl, rfl⟩

theorem witness_LatencyIsNotObservable : (seen State.status (step (facing 0#32 (.command 0x1000000000000000#64)))).isSome = true := by
  decide

end Sys2Proof.Tests
end

section
/-! # The scope rules (spec/00_scope.md)

The datapath primitives as integer operations, the registers each command writes, runs and their fault record, and the time
a step takes. -/

namespace Sys2Proof.Machine

/-! ## The integer value of each datapath primitive (R12 to R14)

Each primitive at a width above 0 is the integer primitive of the rules: both sides are a balanced remainder by `2 ^ n`. -/

section Datapath
variable {n : Nat} (hn : 0 < n)
include hn

theorem toInt_addW (a b : BitVec n) : (addW a b).toInt = Pseudocode.add n a.toInt b.toInt := by
  rw [addW, BitVec.toInt_add, Pseudocode.add, wrap_eq_bmod n hn]

theorem toInt_subW (a b : BitVec n) : (subW a b).toInt = Pseudocode.sub n a.toInt b.toInt := by
  rw [subW, BitVec.toInt_sub, Pseudocode.sub, wrap_eq_bmod n hn]

theorem toInt_mulW (a b : BitVec n) : (mulW a b).toInt = Pseudocode.mul n a.toInt b.toInt := by
  rw [mulW, BitVec.toInt_mul, Pseudocode.mul, wrap_eq_bmod n hn]

/-- The shift works on the unsigned value of the pattern, which has the same remainder as the signed one. -/
theorem toInt_shlW (a : BitVec n) (k : Nat) : (shlW a k).toInt = Pseudocode.shl n a.toInt k := by
  rw [shlW, BitVec.toInt_shiftLeft, Pseudocode.shl, wrap_eq_bmod n hn, BitVec.toInt_eq_toNat_bmod, Int.bmod_mul_bmod,
    Nat.shiftLeft_eq]
  push_cast
  rfl

end Datapath

/-- The arithmetic right shift rounds toward minus infinity at every width (R13, R96). -/
theorem toInt_asrW {n : Nat} (a : BitVec n) (k : Nat) : (asrW a k).toInt = Pseudocode.asr a.toInt k := by
  rw [asrW, BitVec.toInt_sshiftRight, Pseudocode.asr, Int.shiftRight_eq_div_pow,
    Int.fdiv_eq_ediv_of_nonneg _ (by positivity)]
  push_cast
  rfl

theorem toInt_clampW {n : Nat} (v lo hi : BitVec n) :
    (clampW v lo hi).toInt = Pseudocode.clamp v.toInt lo.toInt hi.toInt := by
  simp only [clampW, Pseudocode.clamp, BitVec.slt_iff_toInt_lt, gt_iff_lt, apply_ite BitVec.toInt]

/-- The quotient truncates toward zero; the wrap matters for `-2 ^ 63 / -1` alone (R13, R104). -/
theorem toInt_tdiv64 (a b : BitVec 64) : (tdiv64 a b).toInt = Pseudocode.tdiv64 a.toInt b.toInt := by
  rw [tdiv64, BitVec.toInt_sdiv, Pseudocode.tdiv64, wrap_eq_bmod 64 (by decide)]

/-! ## The registers a command does not write (R32 to R35) -/

theorem effectOf_tFine_of_not_writer {i : Instr} (c : Cal) (s : State) (hT : ∀ adc, i ≠ .compT adc)
    (hF : ∀ tf, i ≠ .setTfine tf) (hR : i ≠ .compRaw) : (effectOf i c s).tFine = s.tFine := by
  cases i with
  | compT adc => exact absurd rfl (hT adc)
  | setTfine tf => exact absurd rfl (hF tf)
  | compRaw => exact absurd rfl hR
  | decodeCal | compP | compH => rfl

theorem effectOf_tOut_of_not_writer {i : Instr} (c : Cal) (s : State) (hT : ∀ adc, i ≠ .compT adc)
    (hR : i ≠ .compRaw) : (effectOf i c s).tOut = s.tOut := by
  cases i with
  | compT adc => exact absurd rfl (hT adc)
  | compRaw => exact absurd rfl hR
  | decodeCal | compP | compH | setTfine => rfl

theorem effectOf_pOut_of_not_writer {i : Instr} (c : Cal) (s : State) (hP : ∀ adc, i ≠ .compP adc)
    (hR : i ≠ .compRaw) : (effectOf i c s).pOut = s.pOut := by
  cases i with
  | compP adc => exact absurd rfl (hP adc)
  | compRaw => exact absurd rfl hR
  | decodeCal | compT | compH | setTfine => rfl

theorem effectOf_hOut_of_not_writer {i : Instr} (c : Cal) (s : State) (hH : ∀ adc, i ≠ .compH adc)
    (hR : i ≠ .compRaw) : (effectOf i c s).hOut = s.hOut := by
  cases i with
  | compH adc => exact absurd rfl (hH adc)
  | compRaw => exact absurd rfl hR
  | decodeCal | compT | compP | setTfine => rfl

/-! ## The fault record only grows (R17) -/

theorem exec_modelFaults_grow {i : Instr} {s t : State} (h : exec i s = .next t) :
    s.modelFaults <+: t.modelFaults := by
  obtain ⟨-, rfl⟩ | ⟨-, rfl⟩ := exec_next_cases h <;> simp

/-- No move clears the record, a reset among them. -/
theorem step_modelFaults_grow {s t : State} (h : step s = .next t) : s.modelFaults <+: t.modelFaults := by
  obtain ⟨-, rfl⟩ | ⟨m, rest, -, hm⟩ := step_next_cases h
  · simp
  · obtain ⟨w, i, -, -, hi⟩ | ⟨w, e, -, -, rfl⟩ | ⟨index, w, -, -, rfl⟩ | ⟨index, f, -, -, rfl⟩ | ⟨a, b, -, rfl⟩ |
      ⟨-, rfl⟩ := hm
    · simpa using exec_modelFaults_grow hi
    all_goals simp [raiseIllegalCommand]

theorem runSteps_succ_of_step {s t : State} (h : step s = .next t) (n : Nat) :
    runSteps (n + 1) s = runSteps n t := by
  rw [runSteps, h]

theorem runSteps_modelFaults_grow (n : Nat) (s : State) :
    ∃ t, runSteps n s = .next t ∧ s.modelFaults <+: t.modelFaults := by
  induction n generalizing s with
  | zero => exact ⟨s, rfl, by simp⟩
  | succ n ih =>
    obtain ⟨u, hu⟩ := step_completes s
    obtain ⟨t, ht, hut⟩ := ih u
    exact ⟨t, (runSteps_succ_of_step hu n).trans ht, (step_modelFaults_grow hu).trans hut⟩

/-! ## The timed step (R10, R157) -/

theorem timedStep_of_step {s t : State} (h : step s = .next t) (latency now : Nat) :
    timedStep latency { state := s, now := now } = .next { state := t, now := now + stepTime latency s } := by
  simp only [timedStep, h]

/-! ## The obligations -/

/-- Settles O29: each primitive's integer value, at the two widths of the datapaths. -/
theorem datapathPrimitives : Obligations.DatapathPrimitives := by
  intro n hw
  have hn : 0 < n := by omega
  exact ⟨fun a b => ⟨toInt_addW hn a b, toInt_subW hn a b, toInt_mulW hn a b⟩,
    fun a k _ => ⟨toInt_shlW hn a k, toInt_asrW a k⟩, toInt_clampW, fun a b _ => toInt_tdiv64 a b⟩

/-- Settles O38, by induction on the number of steps: each step completes and only appends to the fault record. -/
theorem runsCompleteAndKeepTheFaultRecord : Obligations.RunsCompleteAndKeepTheFaultRecord := by
  intro n s
  obtain ⟨t, ht, fs, hfs⟩ := runSteps_modelFaults_grow n s
  exact ⟨t, ht, fs, hfs.symm⟩

/-- Settles O39: a command is its effect on the state or on the state with a fault recorded, and the record is none of the
registers. -/
theorem eachRegisterHasItsWriters : Obligations.EachRegisterHasItsWriters := by
  intro i s t h
  obtain ⟨-, rfl⟩ | ⟨-, rfl⟩ := exec_next_cases h
  all_goals exact ⟨effectOf_tFine_of_not_writer _ _, effectOf_tOut_of_not_writer _ _, effectOf_pOut_of_not_writer _ _,
    effectOf_hOut_of_not_writer _ _, effectOf_image _ _ _, effectOf_pending _ _ _, effectOf_readData _ _ _⟩

/-- Settles O54: the latency is in the time alone. -/
theorem latencyIsNotObservable : Obligations.LatencyIsNotObservable := by
  intro l₁ l₂ n₁ n₂ s t h
  exact ⟨_, _, timedStep_of_step h l₁ n₁, timedStep_of_step h l₂ n₂, rfl, rfl⟩

end Sys2Proof.Machine
end

section
/-! # Steps, moves and STATUS (spec/10_state.md R20 to R24, R36, R37)

A step is the host's first move performed, and a move is a command's effect, a record of a fault, a supplied byte or a reset.
What a move makes of STATUS, of the moves still to come and of the fault record is said once here. -/

namespace Sys2Proof.Machine

/-! ## A step performs the first move of the list (R21, R57) -/

theorem step_of_pending_nil {s : State} (h : s.pending = []) : step s = .next s := by
  rw [step, serveHost_nil h]

theorem step_of_pending_cons {s : State} {m : HostMove} {rest : List HostMove} (h : s.pending = m :: rest) :
    step s = performMove m (writePending rest s) := by
  rw [step, serveHost_cons h]

/-- Everything a move can do when it answers a next state. -/
theorem performMove_next_cases {m : HostMove} {s t : State} (h : performMove m s = .next t) :
    (∃ w i, m = .command w ∧ decode w = .ok i ∧ exec i s = .next t) ∨
    (∃ w e, m = .command w ∧ decode w = .error e ∧ t = raiseIllegalCommand s) ∨
    (∃ index w, m = .read index ∧ readPort index s = .ok w ∧ t = writeReadData w s) ∨
    (∃ index f, m = .read index ∧ readPort index s = .error f ∧
      t = writeReadData (Config.unspecifiedWord s.freeDraws) (noteModelFault f s)) ∨
    (∃ a b, m = .supply a b ∧ t = supplyByte a b s) ∨
    (m = .reset ∧ t = assertReset s) := by
  have hstep : step (writePending (m :: s.pending) s) = .next t := h
  obtain ⟨hnil, -⟩ | ⟨m', rest, hcons, hcases⟩ := step_next_cases hstep
  · cases hnil
  · obtain ⟨rfl, rfl⟩ := List.cons.inj hcons
    exact hcases

theorem performMove_command_of_decode {w : Word64} {i : Instr} (h : decode w = .ok i) (s : State) :
    performMove (.command w) s = exec i s := by
  simp only [performMove, issueCommand, h]

theorem illegal_iff {w : Word64} : (∀ i, decode w ≠ .ok i) ↔ ∃ e, decode w = .error e := by
  cases decode w <;> simp

theorem performMove_command_of_illegal {w : Word64} (h : ∀ i, decode w ≠ .ok i) (s : State) :
    performMove (.command w) s = .next (raiseIllegalCommand s) := by
  obtain ⟨e, he⟩ := illegal_iff.mp h
  simp only [performMove, issueCommand, he]

theorem performMove_read_of_ok {index : Byte} {w : BitVec 32} {s : State} (h : readPort index s = .ok w) :
    performMove (.read index) s = .next (writeReadData w s) := by
  simp only [performMove, readMove, h]

theorem performMove_read_of_error {index : Byte} {f : ModelFault} {s : State} (h : readPort index s = .error f) :
    performMove (.read index) s =
      .next (writeReadData (Config.unspecifiedWord s.freeDraws) (noteModelFault f s)) := by
  simp only [performMove, readMove, h]

/-! ## The moves still to come have no part in a move (R57) -/

theorem checkCalibration_writePending (ms : List HostMove) (s : State) :
    checkCalibration (writePending ms s) = writePending ms (checkCalibration s) := by
  rw [checkCalibration, checkCalibration, apply_ite (writePending ms)]
  rfl

theorem exec_writePending (i : Instr) (ms : List HostMove) (s : State) :
    exec i (writePending ms s) = onNext (writePending ms) (exec i s) := by
  rw [exec_eq, exec_eq]
  split
  · rw [withCalibration, checkCalibration_writePending, effectOf_writePending]
    rfl
  · rw [effectOf_writePending]
    rfl

theorem performMove_writePending (m : HostMove) (ms : List HostMove) (s : State) :
    performMove m (writePending ms s) = onNext (writePending ms) (performMove m s) := by
  cases m with
  | command w =>
    cases hw : decode w with
    | ok i => rw [performMove_command_of_decode hw, performMove_command_of_decode hw, exec_writePending]
    | error e => simp only [performMove, issueCommand, hw]; rfl
  | read index =>
    cases hr : readPort index s with
    | ok w => rw [performMove_read_of_ok hr, performMove_read_of_ok (s := writePending ms s) hr]; rfl
    | error f => rw [performMove_read_of_error hr, performMove_read_of_error (s := writePending ms s) hr]; rfl
  | supply a b => rfl
  | reset => rfl

/-- So no move writes the list either. -/
theorem performMove_pending {m : HostMove} {s t : State} (h : performMove m s = .next t) : t.pending = s.pending := by
  have hself : performMove m s = onNext (writePending s.pending) (.next t) := h ▸ performMove_writePending m s.pending s
  rw [h, onNext, Host.Outcome.next.injEq] at hself
  rw [hself, writePending_pending]

/-! ## What a move makes of STATUS (R36, R37) -/

/-- A command's fields are 1 after it, and every other field is as it was. -/
theorem fieldIsSet_foldl_withField (fs : List StatusField) (st : BitVec 32) (g : StatusField) :
    fieldIsSet (fs.foldl withField st) g = (fieldIsSet st g || decide (g ∈ fs)) := by
  induction fs generalizing st with
  | nil => simp
  | cons f fs ih => simp [ih, Bool.or_assoc]

theorem foldl_withField_reserved (fs : List StatusField) (st : BitVec 32) :
    fs.foldl withField st &&& 0xFFFFFFC0#32 = st &&& 0xFFFFFFC0#32 := by
  induction fs generalizing st with
  | nil => rfl
  | cons f fs ih => rw [List.foldl_cons, ih, withField_reserved]

theorem exec_status {i : Instr} {s t : State} (h : exec i s = .next t) :
    t.status = (fieldsSetBy i).foldl withField s.status := by
  obtain ⟨-, rfl⟩ | ⟨-, rfl⟩ := exec_next_cases h <;> simp [effectOf_status]

/-- STATUS after a move depends on STATUS before it alone. -/
theorem performMove_status {m : HostMove} {s t : State} (h : performMove m s = .next t) :
    t.status = statusAfter s.status m := by
  obtain ⟨w, i, rfl, hi, hexec⟩ | ⟨w, e, rfl, he, rfl⟩ | ⟨index, w, rfl, -, rfl⟩ | ⟨index, f, rfl, -, rfl⟩ |
    ⟨a, b, rfl, rfl⟩ | ⟨rfl, rfl⟩ := performMove_next_cases h
  · simp only [statusAfter, hi, exec_status hexec]
  · simp only [statusAfter, he, raiseIllegalCommand, setStatus_status]
  all_goals rfl

/-! ## Which reads have a value (R38 to R40) -/

/-- The coefficients stand at the indices 0x10 to 0x21. -/
theorem exists_calWord_of_coefficient (c : Cal) {index : Byte} (h : 0x10 ≤ index.toNat ∧ index.toNat ≤ 0x21) :
    ∃ w, calWord c index = some w := by
  obtain ⟨n, hn, rfl⟩ : ∃ n, n = index.toNat ∧ index = BitVec.ofNat 8 n := ⟨_, rfl, by simp⟩
  rw [← hn] at h
  clear hn
  obtain ⟨hlo, hhi⟩ := h
  interval_cases n <;> exact ⟨_, rfl⟩

theorem calWord_of_not_coefficient (c : Cal) {index : Byte} (h : ¬ (0x10 ≤ index.toNat ∧ index.toNat ≤ 0x21)) :
    calWord c index = none := by
  unfold calWord
  repeat rw [if_neg (by rintro rfl; exact h (by decide))]

/-- R38's table, row by row: STATUS, the three outputs, T_FINE, the coefficients, and the reserved indices. -/
theorem index_cases (index : Byte) :
    index = 0x00#8 ∨ index = 0x01#8 ∨ index = 0x02#8 ∨ index = 0x03#8 ∨ index = 0x04#8 ∨
    (0x10 ≤ index.toNat ∧ index.toNat ≤ 0x21) ∨
    ((0x05 ≤ index.toNat ∧ index.toNat ≤ 0x0F) ∨ 0x22 ≤ index.toNat) := by
  simp only [← BitVec.toNat_inj, BitVec.toNat_ofNat, Nat.reducePow, Nat.reduceMod]
  omega

theorem readPort_of_calWord {index : Byte} {w : BitVec 32} {s : State} (h : calWord s.cal index = some w) :
    readPort index s = readWhenSet .calValid index w s := by
  have hrange : 0x10 ≤ index.toNat ∧ index.toNat ≤ 0x21 := by
    by_contra hnot
    rw [calWord_of_not_coefficient _ hnot] at h
    cases h
  unfold readPort
  repeat rw [if_neg (by rintro rfl; exact absurd hrange (by decide))]
  rw [h]

theorem readPort_of_reserved {index : Byte}
    (h : (0x05 ≤ index.toNat ∧ index.toNat ≤ 0x0F) ∨ 0x22 ≤ index.toNat) (s : State) :
    readPort index s = .ok 0x00000000#32 := by
  unfold readPort
  repeat rw [if_neg (by rintro rfl; exact absurd h (by decide))]
  rw [calWord_of_not_coefficient _ (by omega)]

theorem fieldRead_of_coefficient {index : Byte} (h : 0x10 ≤ index.toNat ∧ index.toNat ≤ 0x21) :
    fieldRead index = some .calValid := by
  unfold fieldRead
  repeat rw [if_neg (by rintro rfl; exact absurd h (by decide))]
  rw [if_pos h]

theorem fieldRead_of_reserved {index : Byte}
    (h : (0x05 ≤ index.toNat ∧ index.toNat ≤ 0x0F) ∨ 0x22 ≤ index.toNat) : fieldRead index = none := by
  unfold fieldRead
  repeat rw [if_neg (by rintro rfl; exact absurd h (by decide))]
  rw [if_neg (by omega)]

theorem readWhenSet_of_set {f : StatusField} {s : State} (h : statusIsSet f s = true) (index : Byte) (w : BitVec 32) :
    readWhenSet f index w s = .ok w := if_pos h

theorem readWhenSet_error_iff {f : StatusField} {index : Byte} {w : BitVec 32} {s : State} {e : ModelFault} :
    readWhenSet f index w s = .error e ↔ e = .unwrittenRead index ∧ statusIsSet f s = false := by
  unfold readWhenSet
  cases statusIsSet f s <;> simp [eq_comm]

/-- A read has no value exactly while the valid bit that its index waits for is 0 (R40). -/
theorem readPort_error_iff {index : Byte} {s : State} {e : ModelFault} :
    readPort index s = .error e ↔
      e = .unwrittenRead index ∧ ∃ f, fieldRead index = some f ∧ statusIsSet f s = false := by
  obtain rfl | rfl | rfl | rfl | rfl | hcoefficient | hreserved := index_cases index
  · simp [readPort, fieldRead]
  · simp [readPort, fieldRead, readWhenSet_error_iff]
  · simp [readPort, fieldRead, readWhenSet_error_iff]
  · simp [readPort, fieldRead, readWhenSet_error_iff]
  · simp [readPort, fieldRead]
  · obtain ⟨w, hw⟩ := exists_calWord_of_coefficient s.cal hcoefficient
    simp [readPort_of_calWord hw, readWhenSet_error_iff, fieldRead_of_coefficient hcoefficient]
  · simp [readPort_of_reserved hreserved, fieldRead_of_reserved hreserved]

/-- The registers without a value, as R40 lists them. -/
theorem fieldRead_not_set_iff {index : Byte} {s : State} :
    (∃ f, fieldRead index = some f ∧ statusIsSet f s = false) ↔
      (index.toNat = 0x01 ∧ s.status.getLsbD 2 = false) ∨
      (index.toNat = 0x02 ∧ s.status.getLsbD 3 = false) ∨
      (index.toNat = 0x03 ∧ s.status.getLsbD 4 = false) ∨
      ((0x10 ≤ index.toNat ∧ index.toNat ≤ 0x21) ∧ s.status.getLsbD 0 = false) := by
  obtain rfl | rfl | rfl | rfl | rfl | hcoefficient | hreserved := index_cases index
  · simp [fieldRead]
  · simp [fieldRead, statusIsSet, fieldIsSet, statusBit]
  · simp [fieldRead, statusIsSet, fieldIsSet, statusBit]
  · simp [fieldRead, statusIsSet, fieldIsSet, statusBit]
  · simp [fieldRead]
  · have hne1 : index.toNat ≠ 1 := by omega
    have hne2 : index.toNat ≠ 2 := by omega
    have hne3 : index.toNat ≠ 3 := by omega
    simp [fieldRead_of_coefficient hcoefficient, hcoefficient, hne1, hne2, hne3, statusIsSet, fieldIsSet, statusBit]
  · simp [fieldRead_of_reserved hreserved]
    omega

/-! ## What a move adds to the fault record (R40, R92, R126) -/

/-- The model fault of a move, if it has one: F_UNINIT_CAL or F_UNWRITTEN_READ. -/
def moveFault (s : State) : HostMove → Option ModelFault
  | .command w =>
    match decode w with
    | .ok i => if needsCalibration i && !statusIsSet .calValid s then some .uninitCal else none
    | .error _ => none
  | .read index =>
    match readPort index s with
    | .ok _ => none
    | .error f => some f
  | .supply _ _ => none
  | .reset => none

theorem moveFault_command {w : Word64} {i : Instr} (h : decode w = .ok i) (s : State) :
    moveFault s (.command w) =
      if needsCalibration i && !statusIsSet .calValid s then some .uninitCal else none := by
  simp only [moveFault, h]

theorem moveFault_read_eq_some_iff {index : Byte} {s : State} {f : ModelFault} :
    moveFault s (.read index) = some f ↔ readPort index s = .error f := by
  simp only [moveFault]
  cases readPort index s <;> simp

/-- A move adds its fault to the record, and takes one free value if it has one. -/
theorem performMove_modelFaults {m : HostMove} {s t : State} (h : performMove m s = .next t) :
    t.modelFaults = s.modelFaults ++ (moveFault s m).toList ∧
    t.freeDraws = s.freeDraws + (moveFault s m).toList.length := by
  obtain ⟨w, i, rfl, hi, hexec⟩ | ⟨w, e, rfl, he, rfl⟩ | ⟨index, w, rfl, hr, rfl⟩ | ⟨index, f, rfl, hr, rfl⟩ |
    ⟨a, b, rfl, rfl⟩ | ⟨rfl, rfl⟩ := performMove_next_cases h
  · rw [moveFault_command hi]
    obtain ⟨hvalid | hvalid, rfl⟩ | ⟨⟨hneeds, hnot⟩, rfl⟩ := exec_next_cases hexec
    · simp [hvalid]
    · simp [hvalid]
    · simp [hneeds, hnot]
  · simp [moveFault, he, raiseIllegalCommand]
  · simp [moveFault, hr]
  · simp [moveFault, hr]
  · simp [moveFault]
  · simp [moveFault]

/-- The host's duties are that no move has a fault (R141). -/
theorem moveAllowed_iff {m : HostMove} {s : State} : moveAllowed s.status m = true ↔ moveFault s m = none := by
  cases m with
  | command w =>
    cases hw : decode w <;> simp [moveAllowed, moveFault, hw, statusIsSet, imp_iff_not_or]
  | read index =>
    have hallowed : moveAllowed s.status (.read index) = true ↔
        ¬ ∃ f, fieldRead index = some f ∧ statusIsSet f s = false := by
      simp only [moveAllowed]
      cases fieldRead index <;> simp [statusIsSet]
    simp [hallowed, Option.eq_none_iff_forall_ne_some, moveFault_read_eq_some_iff, readPort_error_iff]
  | supply a b => simp [moveAllowed, moveFault]
  | reset => simp [moveAllowed, moveFault]

end Sys2Proof.Machine
end
section
/-! # The invariant (R32, R35 to R37, R45) and what the host's duties give (R141, R149) -/

namespace Sys2Proof.Machine

/-! ## H_OUT's range, and its integer value (R114, R115) -/

/-- The shift of a clamped value is in range whatever came before the clamp. -/
theorem asr_clamp_mem_range (v : Int) :
    0 ≤ Pseudocode.asr (Pseudocode.clamp v 0 419430400) 12 ∧
      Pseudocode.asr (Pseudocode.clamp v 0 419430400) 12 ≤ 102400 := by
  rw [Pseudocode.asr, Int.fdiv_eq_ediv_of_nonneg _ (by positivity)]
  unfold Pseudocode.clamp
  split_ifs <;> omega

theorem toInt_humidityResult (v : BitVec 32) :
    (humidityResult v).toInt = Pseudocode.asr (Pseudocode.clamp v.toInt 0 419430400) 12 := by
  rw [humidityResult, toInt_asrW, toInt_clampW]
  rfl

/-- H_OUT's pattern is a non-negative s32, so it is its own u32 value. -/
theorem toNat_humidityResult (v : BitVec 32) :
    ((humidityResult v).toNat : Int) = Pseudocode.asr (Pseudocode.clamp v.toInt 0 419430400) 12 := by
  have hrange := asr_clamp_mem_range v.toInt
  have hlt := (humidityResult v).isLt
  rw [← toInt_humidityResult, BitVec.toInt_eq_toNat_cond] at hrange ⊢
  split_ifs at hrange ⊢
  · rfl
  · omega

theorem humidityResult_le (v : BitVec 32) : (humidityResult v).toNat ≤ 102400 := by
  have hvalue := toNat_humidityResult v
  have hrange := asr_clamp_mem_range v.toInt
  omega

/-! ## The invariant at reset, and every step keeps it -/

/-- Settles O47: each part is a fact about the reset values. -/
theorem invariantAtReset : Obligations.InvariantAtReset :=
  ⟨rfl, reset_image_wf, by decide, fun _ => rfl, fun htvalid => absurd htvalid (by decide)⟩

theorem statusIsSet_effectOf (i : Instr) (c : Cal) (s : State) (g : StatusField) :
    statusIsSet g (effectOf i c s) = (statusIsSet g s || decide (g ∈ fieldsSetBy i)) := by
  rw [statusIsSet_eq, effectOf_status, fieldIsSet_foldl_withField, statusIsSet_eq]

theorem effectOf_hOut_le (i : Instr) (c : Cal) {s : State} (h : s.hOut.toNat ≤ 102400) :
    (effectOf i c s).hOut.toNat ≤ 102400 := by
  cases i with
  | compH adc => exact humidityResult_le _
  | compRaw => exact humidityResult_le _
  | decodeCal | compT | compP | setTfine => exact h

/-- Every command that writes T_FINE sets TFINE_SET (R32, R36). -/
theorem effectOf_tFine_of_not_sets (i : Instr) (c : Cal) (s : State) (h : .tfineSet ∉ fieldsSetBy i) :
    (effectOf i c s).tFine = s.tFine :=
  effectOf_tFine_of_not_writer c s (by rintro adc rfl; simp [fieldsSetBy] at h)
    (by rintro tf rfl; simp [fieldsSetBy] at h) (by rintro rfl; simp [fieldsSetBy] at h)

theorem tfineSet_mem_of_tValid_mem {i : Instr} (h : .tValid ∈ fieldsSetBy i) : .tfineSet ∈ fieldsSetBy i := by
  cases i <;> simp [fieldsSetBy] at h ⊢

theorem effectOf_keeps_inv (i : Instr) (c : Cal) {s : State} (h : Inv s) : Inv (effectOf i c s) := by
  obtain ⟨hreserved, himage, hhumidity, htfine, htvalid⟩ := h
  refine ⟨?_, ?_, effectOf_hOut_le i c hhumidity, ?_, ?_⟩
  · rw [effectOf_status, foldl_withField_reserved, hreserved]
  · rw [effectOf_image, himage]
  · simp only [statusIsSet_effectOf, Bool.or_eq_false_iff, decide_eq_false_iff_not]
    rintro ⟨hnot, hmem⟩
    rw [effectOf_tFine_of_not_sets i c s hmem, htfine hnot]
  · simp only [statusIsSet_effectOf, Bool.or_eq_true, decide_eq_true_eq]
    exact Or.imp htvalid tfineSet_mem_of_tValid_mem

/-- The fault record is no part of the invariant. -/
theorem exec_keeps_inv {i : Instr} {s t : State} (hs : Inv s) (h : exec i s = .next t) : Inv t := by
  obtain ⟨-, rfl⟩ | ⟨-, rfl⟩ := exec_next_cases h
  · exact effectOf_keeps_inv i _ hs
  · exact effectOf_keeps_inv i _ (s := noteModelFault .uninitCal s) hs

theorem raiseIllegalCommand_keeps_inv {s : State} (h : Inv s) : Inv (raiseIllegalCommand s) := by
  obtain ⟨hreserved, himage, hhumidity, htfine, htvalid⟩ := h
  refine ⟨(withField_reserved _ _).trans hreserved, himage, hhumidity, ?_, ?_⟩
  · simpa [raiseIllegalCommand, statusIsSet] using htfine
  · simpa [raiseIllegalCommand, statusIsSet] using htvalid

theorem supplyByte_keeps_inv (a b : Byte) {s : State} (h : Inv s) : Inv (supplyByte a b s) := by
  obtain ⟨hreserved, himage, hregisters⟩ := h
  exact ⟨hreserved, Memory.writeByte_wf a b himage, hregisters⟩

/-- A reset keeps the image alone, and every other part of the invariant holds of the reset values. -/
theorem assertReset_keeps_inv {s : State} (h : Inv s) : Inv (assertReset s) := by
  obtain ⟨-, himage, -⟩ := h
  obtain ⟨hreserved, -, hregisters⟩ := invariantAtReset
  exact ⟨hreserved, himage, hregisters⟩

theorem performMove_keeps_inv {m : HostMove} {s t : State} (hs : Inv s) (h : performMove m s = .next t) : Inv t := by
  obtain ⟨w, i, rfl, -, hexec⟩ | ⟨w, e, rfl, -, rfl⟩ | ⟨index, w, rfl, -, rfl⟩ | ⟨index, f, rfl, -, rfl⟩ |
    ⟨a, b, rfl, rfl⟩ | ⟨rfl, rfl⟩ := performMove_next_cases h
  · exact exec_keeps_inv hs hexec
  · exact raiseIllegalCommand_keeps_inv hs
  · exact hs
  · exact hs
  · exact supplyByte_keeps_inv a b hs
  · exact assertReset_keeps_inv hs

/-- Settles O48: the host's list is no part of the invariant, and each move keeps it. -/
theorem stepKeepsTheInvariant : Obligations.StepKeepsTheInvariant := by
  intro s t hs h
  cases hp : s.pending with
  | nil =>
    rw [step_of_pending_nil hp, Host.Outcome.next.injEq] at h
    exact h ▸ hs
  | cons m rest =>
    rw [step_of_pending_cons hp] at h
    exact performMove_keeps_inv (s := writePending rest s) hs h

/-! ## A host that keeps its duties (R141, R149) -/

/-- A move the duties allow completes, with no fault and no free value. -/
theorem performMove_of_allowed {m : HostMove} {s : State} (h : moveAllowed s.status m = true) :
    ∃ t, performMove m s = .next t ∧ t.modelFaults = s.modelFaults ∧ t.freeDraws = s.freeDraws ∧
      t.status = statusAfter s.status m ∧ t.pending = s.pending := by
  obtain ⟨t, ht⟩ := performMove_completes m s
  obtain ⟨hfaults, hdraws⟩ := performMove_modelFaults ht
  rw [moveAllowed_iff.mp h] at hfaults hdraws
  exact ⟨t, ht, by simpa using hfaults, by simpa using hdraws, performMove_status ht, performMove_pending ht⟩

/-- Settles O49, by induction on the number of steps: the duties of the moves still to come are what each step keeps. -/
theorem hostThatKeepsItsDutiesNeverFaults : Obligations.HostThatKeepsItsDutiesNeverFaults := by
  intro n
  induction n with
  | zero => exact fun s _ => ⟨s, rfl, rfl, rfl, rfl, rfl⟩
  | succ n ih =>
    intro s hobeys
    cases hp : s.pending with
    | nil =>
      obtain ⟨t, hrun, hrest⟩ := ih s hobeys
      exact ⟨t, by rw [runSteps_succ_of_step (step_of_pending_nil hp), hrun], by simpa [hp] using hrest⟩
    | cons m rest =>
      rw [hp, hostObeys, Bool.and_eq_true] at hobeys
      obtain ⟨hallowed, hobeys⟩ := hobeys
      obtain ⟨u, hmove, hfaults, hdraws, hstatus, hpending⟩ :=
        performMove_of_allowed (s := writePending rest s) hallowed
      rw [writePending_pending] at hpending
      obtain ⟨t, hrun, htfaults, htdraws, htstatus, htpending⟩ := ih u (by rw [hstatus, hpending]; exact hobeys)
      refine ⟨t, ?_, htfaults.trans hfaults, htdraws.trans hdraws, ?_, ?_⟩
      · rw [runSteps_succ_of_step ((step_of_pending_cons hp).trans hmove), hrun]
      · rw [htstatus, hstatus, hpending]; rfl
      · rw [htpending, hpending]; rfl

end Sys2Proof.Machine
end

section
/-! # The moves one by one (R20 to R24, R36 to R40, R57, R126, R127) -/

namespace Sys2Proof.Machine

/-! ## Decoding a command's own word (R65, R70) -/

theorem adc20Of_setWidth (adc : BitVec 20) : adc20Of (adc.setWidth 32) = .ok adc := by
  have hlt := adc.isLt
  have hhigh : (adc.setWidth 32).extractLsb' 20 12 = 0#12 := by
    apply BitVec.eq_of_toNat_eq
    simp [BitVec.extractLsb'_toNat, Nat.shiftRight_eq_div_pow]
    omega
  have hlow : (adc.setWidth 32).extractLsb' 0 20 = adc := by
    apply BitVec.eq_of_toNat_eq
    simp [BitVec.extractLsb'_toNat]
    omega
  rw [adc20Of, if_pos hhigh, hlow]

theorem adc16Of_setWidth (adc : BitVec 16) : adc16Of (adc.setWidth 32) = .ok adc := by
  have hlt := adc.isLt
  have hhigh : (adc.setWidth 32).extractLsb' 16 16 = 0#16 := by
    apply BitVec.eq_of_toNat_eq
    simp [BitVec.extractLsb'_toNat, Nat.shiftRight_eq_div_pow]
    omega
  have hlow : (adc.setWidth 32).extractLsb' 0 16 = adc := by
    apply BitVec.eq_of_toNat_eq
    simp [BitVec.extractLsb'_toNat]
    omega
  rw [adc16Of, if_pos hhigh, hlow]

theorem decode_encode (i : Instr) : decode (encode i) = .ok i := by
  cases i <;> simp [decode, encode, noOperand, adc20Of_setWidth, adc16Of_setWidth, Except.map]

/-- The table's numbering of a 64-bit word is the word's own. -/
theorem tableWord_toNat (w : Word64) : tableWord 64 w.toNat = w := by
  simp [tableWord, Nat.mod_eq_of_lt w.isLt]

/-! ## The step for each move, as one record update -/

theorem step_of_command {s : State} {w : Word64} {rest : List HostMove} {i : Instr}
    (hp : s.pending = .command w :: rest) (hi : decode w = .ok i) : step s = exec i { s with pending := rest } :=
  (step_of_pending_cons hp).trans (performMove_command_of_decode hi _)

theorem step_of_illegal {s : State} {w : Word64} {rest : List HostMove}
    (hp : s.pending = .command w :: rest) (hw : ∀ i, decode w ≠ .ok i) :
    step s = .next { s with pending := rest, status := s.status ||| 0x20#32 } :=
  (step_of_pending_cons hp).trans (performMove_command_of_illegal hw _)

theorem step_of_read_ok {s : State} {index : Byte} {w : BitVec 32} {rest : List HostMove}
    (hp : s.pending = .read index :: rest) (hr : readPort index s = .ok w) :
    step s = .next { s with pending := rest, readData := some w } :=
  (step_of_pending_cons hp).trans (performMove_read_of_ok (s := writePending rest s) hr)

theorem step_of_read_error {s : State} {index : Byte} {f : ModelFault} {rest : List HostMove}
    (hp : s.pending = .read index :: rest) (hr : readPort index s = .error f) :
    step s = .next { s with
      pending := rest, readData := some (Config.unspecifiedWord s.freeDraws),
      modelFaults := s.modelFaults ++ [f], freeDraws := s.freeDraws + 1 } :=
  (step_of_pending_cons hp).trans (performMove_read_of_error (s := writePending rest s) hr)

/-- Settles O7: the step takes the move off the list and decodes its word; the word of a command decodes to it. -/
theorem stepRunsTheDecodedCommand : Obligations.StepRunsTheDecodedCommand := by
  refine ⟨fun s w rest i hp hi => step_of_command hp hi, fun s i => ?_⟩
  rw [State.withFetchWord, tableWord_toNat]
  exact step_of_command (s := placeCommand (encode i) s) rfl (decode_encode i)

/-- Settles O8: one record update for each move. -/
theorem stepServesEveryMove : Obligations.StepServesEveryMove := by
  refine fun s => ⟨step_of_pending_nil, fun m rest hp => ⟨?_, ?_, ?_, ?_, ?_⟩⟩
  · rintro w rfl hw
    exact step_of_illegal hp hw
  · rintro index w rfl hr
    exact step_of_read_ok hp hr
  · rintro index f rfl hr
    exact step_of_read_error hp hr
  · rintro a b rfl
    exact step_of_pending_cons hp
  · rintro rfl
    exact step_of_pending_cons hp

/-! ## The order of moves (R57) -/

/-- Settles O9, by induction on the first list: its first move gives the same state whatever list stands behind it. -/
theorem movesAreServedInOrder : Obligations.MovesAreServedInOrder := by
  intro ms₁ ms₂
  induction ms₁ with
  | nil => intro s; simp [runSteps]
  | cons m ms ih =>
    intro s
    obtain ⟨t, ht⟩ := performMove_completes m (writePending ms s)
    have hpending : t.pending = ms := performMove_pending ht
    have hjoined : step { s with pending := m :: (ms ++ ms₂) } = .next { t with pending := ms ++ ms₂ } :=
      calc step { s with pending := m :: (ms ++ ms₂) }
        _ = performMove m (writePending (ms ++ ms₂) (writePending ms s)) := rfl
        _ = .next { t with pending := ms ++ ms₂ } := by rw [performMove_writePending, ht]; rfl
    have hfirst : step { s with pending := m :: ms } = .next { t with pending := ms } :=
      ht.trans (by rw [← hpending])
    rw [List.length_cons, Nat.add_right_comm, List.cons_append, runSteps_succ_of_step hjoined,
      runSteps_succ_of_step hfirst, ih t]

/-! ## STATUS (R36, R37) -/

/-- Setting fields is ORing one mask. -/
theorem foldl_withField_eq_or (fs : List StatusField) (st : BitVec 32) :
    fs.foldl withField st = st ||| fs.foldl withField 0#32 := by
  induction fs generalizing st with
  | nil => simp
  | cons f fs ih =>
    rw [List.foldl_cons, List.foldl_cons, ih (withField st f), ih (withField 0#32 f)]
    simp [withField, BitVec.or_assoc]

/-- Settles O11: a command sets its fields and no other bit, and of the other moves only an illegal word and a reset write
STATUS. -/
theorem statusBitsAreSetAsTabled : Obligations.StatusBitsAreSetAsTabled := by
  refine ⟨?_, ?_, ?_, ?_, ?_, rfl, fun s => ⟨rfl, ?_⟩⟩
  · intro i s t h
    rw [exec_status h, foldl_withField_eq_or]
    cases i <;> rfl
  · exact fun w s hw => performMove_command_of_illegal hw s
  · exact fun index s t h => performMove_status h
  · exact fun a b s t h => performMove_status h
  · exact fun s t h => performMove_status h
  · rw [statusWord, BitVec.toNat_and]
    exact Nat.and_two_pow_sub_one_eq_mod _ 6

/-! ## The read port (R22, R38 to R40) -/

theorem readPort_coefficient {index : Byte} {w : BitVec 32} {s : State} (h : calWord s.cal index = some w)
    (hvalid : s.status.getLsbD 0 = true) : readPort index s = .ok w := by
  rw [readPort_of_calWord h, readWhenSet_of_set (f := .calValid) hvalid]

/-- Settles O12: each index's row of the map; an unsigned field's zero extension and a signed field's sign extension are the
patterns of their values. -/
theorem readPortMap : Obligations.ReadPortMap := by
  refine fun s => ⟨rfl, fun h => readWhenSet_of_set (f := .tValid) h _ _,
    fun h => readWhenSet_of_set (f := .pValid) h _ _, fun h => readWhenSet_of_set (f := .hValid) h _ _, rfl,
    fun index h => readPort_of_reserved h s, fun hvalid => ?_⟩
  simp only [BitVec.ofNat_toNat]
  refine ⟨?_, ?_, ?_, ?_, ?_, ?_, ?_, ?_, ?_, ?_, ?_, ?_, ?_, ?_, ?_, ?_, ?_, ?_⟩ <;>
    exact readPort_coefficient rfl hvalid

/-- Settles O13: a read with a value writes the port's word, one without writes the fault record beside it. -/
theorem readHasNoSideEffect : Obligations.ReadHasNoSideEffect := by
  intro s index rest hp
  cases hr : readPort index s with
  | ok w => exact ⟨w, _, step_of_read_ok hp hr, rfl, fun v hv => ⟨Except.ok.inj hv, rfl, rfl⟩⟩
  | error f => exact ⟨_, _, step_of_read_error hp hr, rfl, fun v hv => nomatch hv⟩

/-- Settles O14: a reserved index has the value 0, so its read records nothing. -/
theorem reservedIndexReadsZero : Obligations.ReservedIndexReadsZero :=
  fun s _ _ hp h => step_of_read_ok hp (readPort_of_reserved h s)

/-- Settles O15: the registers without a value are those R40 lists. -/
theorem unwrittenReadFaults : Obligations.UnwrittenReadFaults := by
  intro s index rest hp
  refine ⟨fun h => ?_, fun h => ?_⟩
  · have hr : readPort index s = .error (.unwrittenRead index) :=
      readPort_error_iff.mpr ⟨rfl, fieldRead_not_set_iff.mpr h⟩
    exact ⟨hr, step_of_read_error hp hr⟩
  · obtain ⟨w, hr⟩ : ∃ w, readPort index s = .ok w := by
      obtain h0 | h4 := h
      · exact ⟨statusWord s, if_pos (BitVec.eq_of_toNat_eq h0)⟩
      · obtain rfl : index = 0x04#8 := BitVec.eq_of_toNat_eq h4
        exact ⟨s.tFine, rfl⟩
    exact ⟨w, hr, step_of_read_ok hp hr⟩

/-! ## The events (R125 to R127) -/

theorem needsCalibration_iff {i : Instr} :
    needsCalibration i = true ↔
      i = .compRaw ∨ (∃ adc, i = .compT adc) ∨ (∃ adc, i = .compP adc) ∨ ∃ adc, i = .compH adc := by
  cases i <;> simp [needsCalibration]

theorem ill_not_mem_fieldsSetBy (i : Instr) : .ill ∉ fieldsSetBy i := by
  cases i <;> simp [fieldsSetBy]

/-- A reset clears ILL, an illegal word sets it, and nothing else writes it. -/
theorem ill_statusAfter_iff {m : HostMove} {st : BitVec 32} :
    fieldIsSet (statusAfter st m) .ill = true ↔
      (fieldIsSet st .ill = true ∧ m ≠ .reset) ∨ ∃ w, m = .command w ∧ ∀ i, decode w ≠ .ok i := by
  cases m with
  | command w =>
    cases hw : decode w <;> simp [statusAfter, hw, fieldIsSet_foldl_withField, ill_not_mem_fieldsSetBy]
  | read index => simp [statusAfter]
  | supply a b => simp [statusAfter]
  | reset => simp [statusAfter]

theorem moveFault_writePending (m : HostMove) (ms : List HostMove) (s : State) :
    moveFault (writePending ms s) m = moveFault s m := by
  cases m <;> rfl

/-- The complete table of model faults (R126). -/
theorem moveFault_eq_some_iff {m : HostMove} {s : State} {f : ModelFault} :
    moveFault s m = some f ↔
      (f = .uninitCal ∧ statusIsSet .calValid s = false ∧
        ∃ w i, m = .command w ∧ decode w = .ok i ∧ needsCalibration i = true) ∨
      ∃ index, f = .unwrittenRead index ∧ m = .read index ∧
        ∃ g, fieldRead index = some g ∧ statusIsSet g s = false := by
  cases m with
  | command w =>
    cases hw : decode w with
    | ok i => simp [moveFault_command hw, hw, and_comm, eq_comm (a := ModelFault.uninitCal)]
    | error e => simp [moveFault, hw]
  | read index => simp [moveFault_read_eq_some_iff, readPort_error_iff]
  | supply a b => simp [moveFault]
  | reset => simp [moveFault]

/-- The record after a step: with the fault of the move it served, if there was one. -/
theorem step_modelFaults {s t : State} (h : step s = .next t) :
    t.modelFaults = s.modelFaults ++ (s.pending.head?.bind (moveFault s)).toList := by
  cases hp : s.pending with
  | nil =>
    rw [step_of_pending_nil hp, Host.Outcome.next.injEq] at h
    simp [h]
  | cons m rest =>
    rw [step_of_pending_cons hp] at h
    rw [(performMove_modelFaults h).1, moveFault_writePending]
    rfl

/-- STATUS after a step: what the move it served makes of it, if there was one. -/
theorem step_status {s t : State} (h : step s = .next t) :
    t.status = (s.pending.take 1).foldl statusAfter s.status := by
  cases hp : s.pending with
  | nil =>
    rw [step_of_pending_nil hp, Host.Outcome.next.injEq] at h
    simp [h]
  | cons m rest =>
    rw [step_of_pending_cons hp] at h
    simpa using performMove_status h

theorem append_toList_eq_append_singleton_iff {α : Type} {xs : List α} {o : Option α} {a : α} :
    xs ++ o.toList = xs ++ [a] ↔ o = some a := by
  cases o <;> simp

/-- Settles O36: STATUS and the fault record after a step are those its move gives, by the tables of the moves. -/
theorem eventsAreExactlyThese : Obligations.EventsAreExactlyThese := by
  refine ⟨fun s => ?_, rfl, rfl, fun _ => rfl⟩
  obtain ⟨t, ht⟩ := step_completes s
  refine ⟨t, ht, ?_, ?_, ?_, ?_⟩
  · rw [step_status ht]
    cases s.pending with
    | nil => simp
    | cons m rest => simpa [fieldIsSet, statusBit] using ill_statusAfter_iff (m := m) (st := s.status)
  · intro w rest hp hw
    rw [step_of_illegal hp hw, Host.Outcome.next.injEq] at ht
    exact ht.symm
  · rw [step_modelFaults ht]
    cases s.pending.head?.bind (moveFault s) with
    | none => exact .inl (by simp)
    | some f => exact .inr ⟨f, rfl⟩
  · intro f
    rw [step_modelFaults ht, append_toList_eq_append_singleton_iff]
    simp only [← needsCalibration_iff, ← fieldRead_not_set_iff]
    cases s.pending with
    | nil => simp
    | cons m rest => simpa [statusIsSet, fieldIsSet, statusBit] using moveFault_eq_some_iff (m := m) (s := s) (f := f)

/-! ## The coefficient file (R31) -/

theorem exec_cal_of_ne_decodeCal {i : Instr} {s t : State} (hi : i ≠ .decodeCal) (h : exec i s = .next t) :
    t.cal = s.cal := by
  obtain ⟨-, rfl⟩ | ⟨-, rfl⟩ := exec_next_cases h
  · rw [effectOf_cal, if_neg hi]
  · rw [effectOf_cal, if_neg hi, noteModelFault_cal]

/-- Settles O19: DECODE_CAL takes all 18 fields from the image, and of the other moves only a reset writes the file. -/
theorem onlyDecodeCalWritesCal : Obligations.OnlyDecodeCalWritesCal := by
  refine ⟨fun s c => ⟨_, rfl, rfl⟩, fun i s t => exec_cal_of_ne_decodeCal, fun s t h => ?_⟩
  obtain ⟨-, rfl⟩ | ⟨m, rest, hp, hm⟩ := step_next_cases h
  · exact .inl rfl
  · obtain ⟨w, i, rfl, hi, hexec⟩ | ⟨w, e, -, -, rfl⟩ | ⟨index, w, -, -, rfl⟩ | ⟨index, f, -, -, rfl⟩ | ⟨a, b, -, rfl⟩ |
      ⟨rfl, -⟩ := hm
    · by_cases hdecode : i = .decodeCal
      · exact .inr (.inl ⟨w, rest, hp, hdecode ▸ hi⟩)
      · exact .inl (exec_cal_of_ne_decodeCal (s := writePending rest s) hdecode hexec)
    · exact .inl rfl
    · exact .inl rfl
    · exact .inl rfl
    · exact .inl rfl
    · exact .inr (.inr ⟨rest, hp⟩)

/-! ## The outputs (R35, R42) -/

/-- Settles O27: both commands end in the clamp, with whatever file is in use. -/
theorem humidityIsAlwaysInRange : Obligations.HumidityIsAlwaysInRange :=
  fun _ => ⟨fun _ => ⟨_, rfl, humidityResult_le _⟩, ⟨_, rfl, humidityResult_le _⟩⟩

/-- Setting a field that is 1 changes nothing. -/
theorem withField_of_set {st : BitVec 32} {f : StatusField} (h : fieldIsSet st f = true) : withField st f = st := by
  apply BitVec.eq_of_getLsbD_eq
  intro k hk
  rw [getLsbD_withField, Bool.or_eq_left_iff_imp, decide_eq_true_eq]
  rintro rfl
  exact h

theorem performCompT_idempotent (adc : BitVec 20) (c : Cal) (s : State) :
    performCompT adc c (performCompT adc c s) = performCompT adc c s := by
  simp [performCompT_eq, withField_of_set]

/-- Settles O40: with CAL_VALID 1 a command is its effect with CAL, and what the effect writes is a function of CAL, T_FINE and the
code. -/
theorem compensationIsDeterminedByItsInputs : Obligations.CompensationIsDeterminedByItsInputs := by
  refine ⟨fun s u hcal htf hs hu => ⟨fun adc => ?_, fun adc => ?_, fun adc => ?_⟩, fun s adc hs => ?_⟩
  · refine ⟨_, _, exec_of_valid hs, exec_of_valid hu, ?_⟩
    simp [effectOf, hcal]
  · refine ⟨_, _, exec_of_valid hs, exec_of_valid hu, ?_⟩
    simp [effectOf, hcal, htf]
  · refine ⟨_, _, exec_of_valid hs, exec_of_valid hu, ?_⟩
    simp [effectOf, hcal, htf]
  · have hset : statusIsSet .calValid s = true := hs
    have hvalid : statusIsSet .calValid (effectOf (.compT adc) s.cal s) = true := by
      rw [statusIsSet_effectOf, hset, Bool.true_or]
    refine ⟨effectOf (.compT adc) s.cal s, exec_of_valid hset, ?_⟩
    rw [exec_of_valid hvalid, effectOf, effectOf, performCompT_cal, performCompT_idempotent]

/-! ## Several blocks side by side (R44, R138) -/

theorem systemStep_of_step {k : Nat} {sys : System} {s t : State} (hk : sys[k]? = some s) (h : step s = .next t) :
    systemStep k sys = .next (sys.set k t) := by
  simp only [systemStep, hk, h]

/-- Settles O53: a step of place `k` replaces what stands there, and with nothing there it leaves the system. -/
theorem instancesShareNothing : Obligations.InstancesShareNothing := by
  refine ⟨fun k j sys sys' h hne => ?_, fun k sys s t hk h => ⟨_, systemStep_of_step hk h, ?_, ?_⟩⟩
  · cases hk : sys[k]? with
    | none =>
      simp only [systemStep, hk, Host.Outcome.next.injEq] at h
      rw [h]
    | some s =>
      obtain ⟨t, ht⟩ := step_completes s
      rw [systemStep_of_step hk ht, Host.Outcome.next.injEq] at h
      rw [← h, List.getElem?_set_ne hne.symm]
  · obtain ⟨hlt, -⟩ := List.getElem?_eq_some_iff.mp hk
    rw [List.getElem?_set_self hlt]
  · exact List.length_set

end Sys2Proof.Machine
end

section
/-! # The results of the commands on integers (spec/40_calibration.md, spec/41_compensation.md, spec/42_session.md)

The stages on bit patterns give what the rules' pseudocode gives on integers, and the bytes of an image the stated sums. -/

namespace Sys2Proof.Machine

/-! ## The bytes of an image (R48 to R50, R75, R77, R120) -/

/-- `sext_N` of a pattern's unsigned value is its signed value (R12). -/
theorem toInt_eq_sext {n : Nat} (hn : 0 < n) (v : BitVec n) : v.toInt = Pseudocode.sext n v.toNat := by
  obtain ⟨k, rfl⟩ : ∃ k, n = k + 1 := ⟨n - 1, by omega⟩
  rw [BitVec.toInt_eq_toNat_cond, Pseudocode.sext, Nat.add_sub_cancel]
  have hcast : (2 : Int) ^ k = ((2 ^ k : Nat) : Int) := by push_cast; rfl
  rw [hcast, Nat.pow_succ]
  split_ifs <;> omega

theorem toNat_lowNibble (b : Byte) : (b.extractLsb' 0 4).toNat = b.toNat % 16 := by
  simp [BitVec.extractLsb'_toNat]

theorem toNat_highNibble (b : Byte) : (b.extractLsb' 4 4).toNat = b.toNat / 16 := by
  have := b.isLt
  simp [BitVec.extractLsb'_toNat, Nat.shiftRight_eq_div_pow]
  omega

theorem toNat_u16le (m : Memory) (a : Nat) : ((u16le m (BitVec.ofNat 8 a)).toNat : Int) = Pseudocode.u16le m a := by
  rw [u16le, toNat_concat, Pseudocode.u16le, Pseudocode.byteAt, Pseudocode.byteAt, BitVec.ofNat_add]
  push_cast
  ring

theorem toInt_u16le (m : Memory) (a : Nat) : (u16le m (BitVec.ofNat 8 a)).toInt = Pseudocode.s16le m a := by
  rw [toInt_eq_sext (by decide), toNat_u16le, Pseudocode.s16le]

theorem toInt_h4raw (m : Memory) : (h4raw m).toInt = Pseudocode.sext 12 (Pseudocode.h4raw m) := by
  rw [toInt_eq_sext (by decide), h4raw, toNat_concat, toNat_lowNibble]
  rfl

theorem toInt_h5raw (m : Memory) : (h5raw m).toInt = Pseudocode.sext 12 (Pseudocode.h5raw m) := by
  rw [toInt_eq_sext (by decide), h5raw, toNat_concat, toNat_highNibble]
  rfl

theorem toNat_raw20 (m : Memory) (a : Nat) : ((raw20 m (BitVec.ofNat 8 a)).toNat : Int) = Pseudocode.raw20 m a := by
  rw [raw20, toNat_concat, toNat_concat, toNat_highNibble, Pseudocode.raw20, Pseudocode.byteAt, Pseudocode.byteAt,
    Pseudocode.byteAt, BitVec.ofNat_add, BitVec.ofNat_add]
  push_cast
  ring

theorem toNat_rawAdcT (m : Memory) : ((rawAdcT m).toNat : Int) = Pseudocode.raw20 m 0xFA := toNat_raw20 m _

theorem toNat_rawAdcP (m : Memory) : ((rawAdcP m).toNat : Int) = Pseudocode.raw20 m 0xF7 := toNat_raw20 m _

theorem toNat_rawAdcH (m : Memory) : ((rawAdcH m).toNat : Int) = Pseudocode.raw16 m := by
  rw [rawAdcH, toNat_concat]
  rfl

/-- DECODE_CAL's 18 fields (R80 to R84). -/
theorem decodeCoefficients_decodedFrom (m : Memory) : Pseudocode.CalDecodedFrom m (decodeCoefficients m) :=
  ⟨toNat_u16le m _, toInt_u16le m _, toInt_u16le m _, toNat_u16le m _, toInt_u16le m _, toInt_u16le m _,
    toInt_u16le m _, toInt_u16le m _, toInt_u16le m _, toInt_u16le m _, toInt_u16le m _, toInt_u16le m _, rfl,
    toInt_u16le m _, rfl, toInt_h4raw m, toInt_h5raw m, toInt_eq_sext (by decide) _⟩

/-! ## The stages on integers (R93 to R115)

The machine adds a constant in front of a term, the rules behind it. -/

theorem pseudocode_add_comm (n : Nat) (a b : Int) : Pseudocode.add n a b = Pseudocode.add n b a := by
  rw [Pseudocode.add, Pseudocode.add, Int.add_comm]

theorem toInt_temperatureStages (c : Cal) (adc : BitVec 20) :
    ((temperatureStages c adc).1.toInt, (temperatureStages c adc).2.toInt) = Pseudocode.temperature c adc.toNat := by
  simp (disch := decide) only [temperatureStages, toInt_addW, toInt_subW, toInt_mulW, toInt_shlW, toInt_asrW,
    toInt_enterU, toInt_enterS, BitVec.reduceToInt, pseudocode_add_comm 32 128]
  rfl

theorem toInt_pressureDenominator (c : Cal) (tf : BitVec 32) : (pressureDenominator c tf).toInt =
    Pseudocode.pressureVar1 c.digP1.toNat c.digP2.toInt c.digP3.toInt tf.toInt := by
  simp (disch := decide) only [pressureDenominator, pressureOffset, toInt_addW, toInt_subW, toInt_mulW, toInt_shlW,
    toInt_asrW, toInt_enterU, toInt_enterS, BitVec.reduceToInt]
  rfl

theorem toInt_pressureVar2 (c : Cal) (tf : BitVec 32) : (pressureVar2 c tf).toInt =
    Pseudocode.pressureVar2 c.digP4.toInt c.digP5.toInt c.digP6.toInt tf.toInt := by
  simp (disch := decide) only [pressureVar2, pressureOffset, toInt_addW, toInt_subW, toInt_mulW, toInt_shlW,
    toInt_enterS, BitVec.reduceToInt]
  rfl

theorem pressureDenominator_eq_zero_iff (c : Cal) (tf : BitVec 32) : pressureDenominator c tf = 0#64 ↔
    Pseudocode.pressureVar1 c.digP1.toNat c.digP2.toInt c.digP3.toInt tf.toInt = 0 := by
  rw [← BitVec.toInt_inj, toInt_pressureDenominator, BitVec.toInt_zero]

theorem toInt_pressureStages (c : Cal) (tf : BitVec 32) (adc : BitVec 20) :
    (pressureStages c tf adc).toInt = Pseudocode.pressure c tf.toInt adc.toNat := by
  rw [pressureStages, Pseudocode.pressure, Pseudocode.compP]
  simp only [pressureDenominator_eq_zero_iff]
  split_ifs
  · rfl
  · simp (disch := decide) only [pressureCorrection, pressureQuotient, toInt_tdiv64, toInt_pressureVar2,
      toInt_pressureDenominator, toInt_addW, toInt_subW, toInt_mulW, toInt_shlW, toInt_asrW, toInt_enterU, toInt_enterS,
      BitVec.reduceToInt]

theorem toNat_setWidth32 (v : BitVec 64) : ((v.setWidth 32).toNat : Int) = Pseudocode.truncU32 v.toInt := by
  rw [BitVec.toNat_setWidth, Pseudocode.truncU32, BitVec.toInt_eq_toNat_cond]
  split_ifs <;> omega

/-- P_OUT is the low half of the s64 result (R107). -/
theorem toNat_pressure (c : Cal) (tf : BitVec 32) (adc : BitVec 20) :
    (((pressureStages c tf adc).setWidth 32).toNat : Int) =
      Pseudocode.truncU32 (Pseudocode.pressure c tf.toInt adc.toNat) := by
  rw [toNat_setWidth32, toInt_pressureStages]

theorem toInt_humidityStages (c : Cal) (tf : BitVec 32) (adc : BitVec 16) :
    (humidityStages c tf adc).toInt = Pseudocode.humidityV c.digH1.toNat c.digH2.toInt c.digH3.toNat c.digH4.toInt
      c.digH5.toInt c.digH6.toInt tf.toInt adc.toNat := by
  simp (disch := decide) only [humidityStages, humidityCorrection, humidityOffset, humidityGain, toInt_addW, toInt_subW,
    toInt_mulW, toInt_shlW, toInt_asrW, toInt_enterU, toInt_enterS, BitVec.reduceToInt, pseudocode_add_comm 32 16384,
    pseudocode_add_comm 32 32768, pseudocode_add_comm 32 2097152, pseudocode_add_comm 32 8192]
  rfl

theorem toNat_humidity (c : Cal) (tf : BitVec 32) (adc : BitVec 16) :
    ((humidityResult (humidityStages c tf adc)).toNat : Int) = Pseudocode.humidity c tf.toInt adc.toNat := by
  rw [toNat_humidityResult, toInt_humidityStages, Pseudocode.humidity, Pseudocode.compH]

/-! ## Every legal command (R125) -/

/-- Every command is its effect with the coefficients in use; a check before it leaves what the effect reads. -/
theorem exists_exec_eq_effectOf (i : Instr) (s : State) : ∃ s₀, exec i s = .next (effectOf i (coefficientsInUse s) s₀) ∧
    s₀.tFine = s.tFine ∧ s₀.image = s.image := by
  cases i with
  | decodeCal | setTfine => exact ⟨s, rfl, rfl, rfl⟩
  | compT | compP | compH | compRaw =>
    exact ⟨checkCalibration s, rfl, checkCalibration_tFine s, checkCalibration_image s⟩

/-- Settles O37: the effect writes the results of the coefficients in use. -/
theorem everyLegalCommandCompletes : Obligations.EveryLegalCommandCompletes := by
  intro s w rest i hp hi
  obtain ⟨s₀, hexec, htFine, himage⟩ := exists_exec_eq_effectOf i (writePending rest s)
  rw [writePending_tFine] at htFine
  rw [writePending_image] at himage
  refine ⟨coefficientsInUse s, _, (step_of_command hp hi).trans hexec, ?_, ?_, fun h => coefficientsInUse_of_valid h, ?_⟩
  · exact performMove_pending ((performMove_command_of_decode hi _).trans hexec)
  · intro f hf
    simp [exec_status hexec, fieldIsSet_foldl_withField, hf]
  · rw [← htFine, ← himage]
    cases i with
    | decodeCal => exact decodeCoefficients_decodedFrom s₀.image
    | compT adc => exact toInt_temperatureStages _ adc
    | compP adc => exact toNat_pressure _ _ adc
    | compH adc => exact toNat_humidity _ _ adc
    | setTfine tf => rfl
    | compRaw =>
      rw [← toNat_rawAdcT, ← toNat_rawAdcP, ← toNat_rawAdcH]
      exact ⟨toInt_temperatureStages _ _, toNat_pressure _ _ _, toNat_humidity _ _ _⟩

end Sys2Proof.Machine
end

section
/-! # The sensor register image (spec/20_memory.md)

A supplied byte reads back and every other byte is kept; the raw codes are sums of bytes; a command depends on the image through the
bytes R46 lists for it. -/

namespace Sys2Proof.Machine

/-! ## Reading after the host's write (R45, R141) -/

/-- Supplying what an unlisted address reads as takes the address off the list, and it then reads as just that. -/
theorem Memory.readByte_writeByte {m : Memory} (a b x : Byte) (h : m.wf = true) :
    (m.writeByte a b).readByte x = if x = a then b else m.readByte x := by
  simp only [Memory.readByte, Memory.writeByte, ← BitVec.toNat_inj (x := x) (y := a)]
  split_ifs with hb hx hx
  · rw [Memory.lookup_erase _ _ h, if_pos hx, hb]
  · rw [Memory.lookup_erase _ _ h, if_neg hx]
  · rw [Memory.lookup_insert, if_pos hx]
  · rw [Memory.lookup_insert, if_neg hx]

theorem byteAt_eq_iff {m m' : Memory} {x : Nat} : Pseudocode.byteAt m x = Pseudocode.byteAt m' x ↔
    m.readByte (BitVec.ofNat 8 x) = m'.readByte (BitVec.ofNat 8 x) := by
  rw [Pseudocode.byteAt, Pseudocode.byteAt, Int.natCast_inj, BitVec.toNat_inj]

theorem byteAt_writeByte_of_ne {m : Memory} {a : Byte} {x : Nat} (b : Byte) (h : m.wf = true) (hx : x < 256)
    (hne : x ≠ a.toNat) : Pseudocode.byteAt (m.writeByte a b) x = Pseudocode.byteAt m x := by
  have hne' : BitVec.ofNat 8 x ≠ a := by
    rintro rfl
    exact hne (Nat.mod_eq_of_lt hx).symm
  rw [byteAt_eq_iff, Memory.readByte_writeByte _ _ _ h, if_neg hne']

/-! ## The bytes a command reads (R46, R47) -/

theorem lt_of_mem_bytesReadBy {i : Instr} {x : Nat} (h : x ∈ bytesReadBy i) : x < 256 := by
  have hdecode : ∀ x ∈ bytesReadBy .decodeCal, x < 256 := by decide
  have hraw : ∀ x ∈ bytesReadBy .compRaw, x < 256 := by decide
  cases i with
  | decodeCal => exact hdecode x h
  | compRaw => exact hraw x h
  | compT | compP | compH | setTfine => cases h

/-- The lists of DECODE_CAL and COMP_RAW are the only ones with an address in them. -/
theorem not_mem_bytesReadBy {x : Nat} (hdecode : x ∉ bytesReadBy .decodeCal) (hraw : x ∉ bytesReadBy .compRaw)
    (i : Instr) : x ∉ bytesReadBy i := by
  cases i with
  | decodeCal => exact hdecode
  | compRaw => exact hraw
  | compT | compP | compH | setTfine => exact List.not_mem_nil

theorem decodeCoefficients_congr {m m' : Memory}
    (h : ∀ a ∈ bytesReadBy .decodeCal, Pseudocode.byteAt m a = Pseudocode.byteAt m' a) :
    decodeCoefficients m = decodeCoefficients m' := by
  simp only [bytesReadBy, List.forall_mem_cons, byteAt_eq_iff] at h
  simp [decodeCoefficients, u16le, h4raw, h5raw, h]

theorem rawAdc_congr {m m' : Memory}
    (h : ∀ a ∈ bytesReadBy .compRaw, Pseudocode.byteAt m a = Pseudocode.byteAt m' a) :
    rawAdcT m = rawAdcT m' ∧ rawAdcP m = rawAdcP m' ∧ rawAdcH m = rawAdcH m' := by
  simp only [bytesReadBy, List.forall_mem_cons, byteAt_eq_iff] at h
  simp [rawAdcT, rawAdcP, rawAdcH, raw20, h]

theorem effectOf_with_image {i : Instr} {s : State} {m : Memory} (c : Cal)
    (h : ∀ a ∈ bytesReadBy i, Pseudocode.byteAt m a = Pseudocode.byteAt s.image a) :
    effectOf i c { s with image := m } = { effectOf i c s with image := m } := by
  cases i with
  | decodeCal => rw [effectOf, decodeCoefficients_congr h]; rfl
  | compRaw =>
    obtain ⟨hT, hP, hH⟩ := rawAdc_congr h
    rw [effectOf, performCompRaw, hT, hP, hH]
    rfl
  | compT | compP | compH | setTfine => rfl

/-- The CAL_VALID check comes before the image is read (R131). -/
theorem checkCalibration_with_image (m : Memory) (s : State) :
    checkCalibration { s with image := m } = { checkCalibration s with image := m } := by
  obtain ⟨hvalid, hs⟩ | ⟨hvalid, hs⟩ := checkCalibration_cases s
  · rw [hs]
    exact checkCalibration_of_valid hvalid
  · rw [hs]
    exact checkCalibration_of_not_valid hvalid

theorem exec_with_image {i : Instr} {s : State} {m : Memory}
    (h : ∀ a ∈ bytesReadBy i, Pseudocode.byteAt m a = Pseudocode.byteAt s.image a) :
    exec i { s with image := m } = onNext (fun t => { t with image := m }) (exec i s) := by
  rw [exec_eq, exec_eq]
  split
  · rw [withCalibration, checkCalibration_with_image, effectOf_with_image _ (by rwa [checkCalibration_image])]
    rfl
  · rw [effectOf_with_image _ h]
    rfl

theorem exec_image {i : Instr} {s t : State} (h : exec i s = .next t) : t.image = s.image := by
  obtain ⟨-, rfl⟩ | ⟨-, rfl⟩ := exec_next_cases h <;> simp

/-! ## The obligations -/

/-- Settles O31: the three codes are concatenations of bytes and of a high nibble. -/
theorem rawSampleAssembly : Obligations.RawSampleAssembly :=
  fun m => ⟨toNat_rawAdcP m, toNat_rawAdcT m, toNat_rawAdcH m⟩

/-- Settles O41: a command writes no image, so a byte it does not read may be supplied before it or after it. -/
theorem unreadBytesHaveNoEffect : Obligations.UnreadBytesHaveNoEffect := by
  refine ⟨fun i s m => exec_with_image, fun i s a b hwf hdecode hraw => ?_⟩
  have hagree : ∀ x ∈ bytesReadBy i, Pseudocode.byteAt (s.image.writeByte a b) x = Pseudocode.byteAt s.image x :=
    fun x hx => byteAt_writeByte_of_ne b hwf (lt_of_mem_bytesReadBy hx)
      (ne_of_mem_of_not_mem hx (not_mem_bytesReadBy hdecode hraw i))
  obtain ⟨t, ht⟩ := exec_completes i s
  rw [supplyByte, exec_with_image hagree, ht, onNext, onNext, supplyByte, exec_image ht]

/-- Settles O42: the step writes the byte into the image and takes the move off the list. -/
theorem suppliedByteReadsBack : Obligations.SuppliedByteReadsBack := fun _ a b _ hp hwf =>
  ⟨_, step_of_pending_cons hp, rfl, Memory.writeByte_wf a b hwf, fun x => Memory.readByte_writeByte a b x hwf⟩

end Sys2Proof.Machine
end

section
/-! # Encoding and the assembler (spec/30_encoding.md)

`decode` and `encode` are inverse to each other, so a word decodes to a command exactly when it is that command's word.
What the opcode table, the illegal words and the operands are follows from the words of the commands as numbers. -/

namespace Sys2Proof.Machine

/-! ## The decoder and the encoder are inverse (R63 to R66, R70) -/

theorem decode_of_encode_eq {w : Word64} {i : Instr} (h : encode i = w) : decode w = .ok i := h ▸ decode_encode i

/-- No bit of a word with RSV 0 lies outside OP and ARG (R63). -/
theorem packCommand_fields {w : Word64} (h : rsvField w = 0#28) : packCommand (opField w) (argField w) = w := by
  have hrsv : w.toNat / 2 ^ 32 % 2 ^ 28 = 0 := by rw [← toNat_rsvField, h, BitVec.toNat_zero]
  apply BitVec.eq_of_toNat_eq
  rw [toNat_packCommand, toNat_opField, toNat_argField]
  omega

/-- A pattern whose high bits are 0 is its low field, zero-extended. -/
theorem setWidth_low_of_high_eq_zero {n k m : Nat} (hn : n ≤ k + m) {arg : BitVec n} (h : arg.extractLsb' k m = 0#m) :
    (arg.extractLsb' 0 k).setWidth n = arg := by
  apply BitVec.eq_of_getLsbD_eq
  intro j hj
  by_cases hjk : j < k
  · simp [hj, hjk]
  · have hhigh : (arg.extractLsb' k m).getLsbD (j - k) = arg.getLsbD j := by
      rw [BitVec.getLsbD_extractLsb', Nat.add_sub_cancel' (by omega), decide_eq_true (by omega), Bool.true_and]
    simp [hjk, ← hhigh, h]

theorem encode_of_decode {w : Word64} {i : Instr} (h : decode w = .ok i) : encode i = w := by
  obtain ⟨hrsv, hfields⟩ := decode_ok_fields h
  rw [← packCommand_fields hrsv]
  cases i with
  | decodeCal | compRaw | setTfine tf =>
    obtain ⟨hop, harg⟩ := hfields
    rw [hop, harg, encode]
  | compT adc | compP adc | compH adc =>
    obtain ⟨hop, hhigh, hlow⟩ := hfields
    rw [hop, encode, ← hlow, setWidth_low_of_high_eq_zero (by decide) hhigh]

/-! ## The words of the commands as numbers (R64, R65) -/

theorem toNat_packCommand_setWidth {k : Nat} (hk : k ≤ 32) (op : BitVec 4) (v : BitVec k) :
    (packCommand op (v.setWidth 32)).toNat = op.toNat * 2 ^ 60 + v.toNat := by
  rw [toNat_packCommand, BitVec.toNat_setWidth_of_le hk]

@[simp] theorem toNat_encode_decodeCal : (encode .decodeCal).toNat = 0x1 * 2 ^ 60 := rfl

@[simp] theorem toNat_encode_compT (adc : BitVec 20) : (encode (.compT adc)).toNat = 0x2 * 2 ^ 60 + adc.toNat :=
  toNat_packCommand_setWidth (by decide) 0x2#4 adc

@[simp] theorem toNat_encode_compP (adc : BitVec 20) : (encode (.compP adc)).toNat = 0x3 * 2 ^ 60 + adc.toNat :=
  toNat_packCommand_setWidth (by decide) 0x3#4 adc

@[simp] theorem toNat_encode_compH (adc : BitVec 16) : (encode (.compH adc)).toNat = 0x4 * 2 ^ 60 + adc.toNat :=
  toNat_packCommand_setWidth (by decide) 0x4#4 adc

@[simp] theorem toNat_encode_setTfine (tf : BitVec 32) : (encode (.setTfine tf)).toNat = 0x5 * 2 ^ 60 + tf.toNat :=
  toNat_packCommand 0x5#4 tf

@[simp] theorem toNat_encode_compRaw : (encode .compRaw).toNat = 0x6 * 2 ^ 60 := rfl

theorem decode_of_toNat_eq {w : Word64} {i : Instr} (h : w.toNat = (encode i).toNat) : decode w = .ok i :=
  decode_of_encode_eq (BitVec.eq_of_toNat_eq h.symm)

theorem toNat_of_decode {w : Word64} {i : Instr} (h : decode w = .ok i) : w.toNat = (encode i).toNat := by
  rw [encode_of_decode h]

/-! ## The opcode table (R65, R66) -/

/-- A row whose mask has all bits from bit `k` up is selected by the words that are its match and `k` operand bits. -/
theorem rowSelected_iff_toNat {w p m : Word64} {name : String} (k : Nat) (hmask : m = BitVec.allOnes 64 <<< k) :
    rowSelected w ⟨name, p, m⟩ = true ↔ w.toNat = p.toNat + w.toNat % 2 ^ k := by
  have hsplit := Nat.div_add_mod' w.toNat (2 ^ k)
  have hlt : w.toNat / 2 ^ k * 2 ^ k < 2 ^ 64 := (Nat.div_mul_le_self _ _).trans_lt w.isLt
  simp only [rowSelected, beq_iff_eq]
  rw [hmask, ← BitVec.shiftLeft_ushiftRight, ← BitVec.toNat_inj, BitVec.toNat_shiftLeft, BitVec.toNat_ushiftRight,
    Nat.shiftRight_eq_div_pow, Nat.shiftLeft_eq, Nat.mod_eq_of_lt hlt]
  omega

theorem decode_of_rowSelected {w : Word64} {row : OpcodeRow} (hrow : row ∈ opcodeTable) (h : rowSelected w row = true) :
    ∃ i, decode w = .ok i ∧ i.mnemonic = row.mnemonic := by
  simp only [opcodeTable, List.mem_cons, List.not_mem_nil, or_false] at hrow
  obtain rfl | rfl | rfl | rfl | rfl | rfl := hrow
  · have hword := (rowSelected_iff_toNat 0 (by decide)).mp h
    exact ⟨.decodeCal, decode_of_toNat_eq (by simpa [Nat.mod_one] using hword), rfl⟩
  · have hword := (rowSelected_iff_toNat 20 (by decide)).mp h
    exact ⟨.compT (w.setWidth 20), decode_of_toNat_eq (by simpa using hword), rfl⟩
  · have hword := (rowSelected_iff_toNat 20 (by decide)).mp h
    exact ⟨.compP (w.setWidth 20), decode_of_toNat_eq (by simpa using hword), rfl⟩
  · have hword := (rowSelected_iff_toNat 16 (by decide)).mp h
    exact ⟨.compH (w.setWidth 16), decode_of_toNat_eq (by simpa using hword), rfl⟩
  · have hword := (rowSelected_iff_toNat 32 (by decide)).mp h
    exact ⟨.setTfine (w.setWidth 32), decode_of_toNat_eq (by simpa using hword), rfl⟩
  · have hword := (rowSelected_iff_toNat 0 (by decide)).mp h
    exact ⟨.compRaw, decode_of_toNat_eq (by simpa [Nat.mod_one] using hword), rfl⟩

theorem exists_rowSelected_encode (i : Instr) :
    ∃ row ∈ opcodeTable, row.mnemonic = i.mnemonic ∧ rowSelected (encode i) row = true := by
  cases i with
  | decodeCal => exact Laws.EncodingRow.decodeCal
  | compT adc => exact Laws.EncodingRow.compT adc
  | compP adc => exact Laws.EncodingRow.compP adc
  | compH adc => exact Laws.EncodingRow.compH adc
  | setTfine tf => exact Laws.EncodingRow.setTfine tf
  | compRaw => exact Laws.EncodingRow.compRaw

theorem opcodeRow_eq_of_mnemonic_eq :
    ∀ r₁ ∈ opcodeTable, ∀ r₂ ∈ opcodeTable, r₁.mnemonic = r₂.mnemonic → r₁ = r₂ := by decide

theorem rowSelected_iff_decode {w : Word64} {row : OpcodeRow} (hrow : row ∈ opcodeTable) :
    rowSelected w row = true ↔ ∃ i, decode w = .ok i ∧ i.mnemonic = row.mnemonic := by
  refine ⟨decode_of_rowSelected hrow, fun ⟨i, hi, hmnemonic⟩ => ?_⟩
  obtain ⟨row', hrow', hmnemonic', hsel⟩ := exists_rowSelected_encode i
  obtain rfl := opcodeRow_eq_of_mnemonic_eq row' hrow' row hrow (hmnemonic'.trans hmnemonic)
  rwa [← encode_of_decode hi]

theorem rowSelected_unique {w : Word64} {r₁ r₂ : OpcodeRow} (h₁ : r₁ ∈ opcodeTable) (h₂ : r₂ ∈ opcodeTable)
    (hsel₁ : rowSelected w r₁ = true) (hsel₂ : rowSelected w r₂ = true) : r₁ = r₂ := by
  obtain ⟨i, hi, hi₁⟩ := (rowSelected_iff_decode h₁).mp hsel₁
  obtain ⟨j, hj, hj₂⟩ := (rowSelected_iff_decode h₂).mp hsel₂
  obtain rfl : i = j := Except.ok.inj (hi.symm.trans hj)
  exact opcodeRow_eq_of_mnemonic_eq r₁ h₁ r₂ h₂ (hi₁.symm.trans hj₂)

theorem no_rowSelected_iff_illegal (w : Word64) :
    (∀ row ∈ opcodeTable, rowSelected w row = false) ↔ ∃ e, decode w = .error e := by
  rw [← illegal_iff]
  constructor
  · intro h i hi
    obtain ⟨row, hrow, -, hsel⟩ := exists_rowSelected_encode i
    rw [encode_of_decode hi, h row hrow] at hsel
    cases hsel
  · intro h row hrow
    rw [← Bool.not_eq_true, rowSelected_iff_decode hrow]
    exact fun ⟨i, hi, _⟩ => h i hi

/-- R66's list of the illegal words is what the six rows leave out. -/
theorem no_rowSelected_iff_fields (w : Word64) :
    (∀ row ∈ opcodeTable, rowSelected w row = false) ↔
      (w.toNat / 2 ^ 60 = 0 ∨ 7 ≤ w.toNat / 2 ^ 60) ∨
      w.toNat / 2 ^ 32 % 2 ^ 28 ≠ 0 ∨
      ((w.toNat / 2 ^ 60 = 2 ∨ w.toNat / 2 ^ 60 = 3) ∧ w.toNat % 2 ^ 32 / 2 ^ 20 ≠ 0) ∨
      (w.toNat / 2 ^ 60 = 4 ∧ w.toNat % 2 ^ 32 / 2 ^ 16 ≠ 0) ∨
      ((w.toNat / 2 ^ 60 = 1 ∨ w.toNat / 2 ^ 60 = 6) ∧ w.toNat % 2 ^ 32 ≠ 0) := by
  simp only [opcodeTable, List.forall_mem_cons, List.not_mem_nil, ← Bool.not_eq_true,
    rowSelected_iff_toNat (m := 0xFFFFFFFFFFFFFFFF#64) 0 (by decide),
    rowSelected_iff_toNat (m := 0xFFFFFFFFFFF00000#64) 20 (by decide),
    rowSelected_iff_toNat (m := 0xFFFFFFFFFFFF0000#64) 16 (by decide),
    rowSelected_iff_toNat (m := 0xFFFFFFFF00000000#64) 32 (by decide),
    BitVec.reduceToNat, false_imp_iff, implies_true, and_true]
  omega

theorem issueCommand_of_illegal {w : Word64} {e : IllegalWord} (h : decode w = .error e) (s : State) :
    issueCommand w s = .next { s with status := s.status ||| 0x20#32 } := by
  rw [issueCommand, h]
  rfl

/-! ## The ranges of an operand (R69) -/

theorem fitsUnsigned_dec {bound n : Nat} : (Literal.dec false n).fitsUnsigned bound = true ↔ n < bound :=
  decide_eq_true_iff

theorem fitsUnsigned_hex {bound n : Nat} : (Literal.hex n).fitsUnsigned bound = true ↔ n < bound := decide_eq_true_iff

theorem fitsSigned32_dec {n : Nat} : (Literal.dec false n).fitsSigned32 = true ↔ n ≤ 2147483647 := decide_eq_true_iff

theorem fitsSigned32_dec_neg {n : Nat} : (Literal.dec true n).fitsSigned32 = true ↔ n ≤ 2147483648 :=
  decide_eq_true_iff

theorem fitsSigned32_hex {n : Nat} : (Literal.hex n).fitsSigned32 = true ↔ n < 4294967296 := decide_eq_true_iff

theorem toNat_literalBits_dec {k n : Nat} (h : n < 2 ^ k) : (literalBits k (.dec false n)).toNat = n :=
  Nat.mod_eq_of_lt h

theorem toNat_literalBits_hex {k n : Nat} (h : n < 2 ^ k) : (literalBits k (.hex n)).toNat = n := Nat.mod_eq_of_lt h

theorem toNat_literalBits_dec_neg {k n : Nat} (hpos : 0 < n) (h : n < 2 ^ k) :
    (literalBits k (.dec true n)).toNat = 2 ^ k - n := by
  rw [literalBits, BitVec.toNat_neg, BitVec.toNat_ofNat, Nat.mod_eq_of_lt h, Nat.mod_eq_of_lt (by omega)]

/-! ## Lines to words (R69 to R72) -/

theorem assembleLine_of_wellFormed {l : SourceLine} (h : l.wellFormed = true) :
    assembleLine l = some ((expandLine l).map encode) := if_pos h

theorem assembleLine_eq_none_iff (l : SourceLine) : assembleLine l = none ↔ l.wellFormed = false := by
  simp [assembleLine]

theorem decode_of_mem_assembleLine {l : SourceLine} {ws : List Word64} (h : assembleLine l = some ws) {w : Word64}
    (hw : w ∈ ws) : ∃ i, decode w = .ok i := by
  rw [assembleLine, Option.ite_none_right_eq_some, Option.some.injEq] at h
  obtain ⟨-, rfl⟩ := h
  obtain ⟨i, -, rfl⟩ := List.mem_map.mp hw
  exact ⟨i, decode_encode i⟩

/-- A line in range that stands for one command assembles to that command's word, given as a number. -/
theorem assembleLine_of_single {l : SourceLine} {i : Instr} {n : Nat} (hwf : l.wellFormed = true)
    (hexpand : expandLine l = [i]) (hn : (encode i).toNat = n) : assembleLine l = some [BitVec.ofNat 64 n] := by
  rw [assembleLine_of_wellFormed hwf, hexpand, List.map_singleton, ← hn, BitVec.ofNat_toNat, BitVec.setWidth_eq]

theorem assembleLine_compT {adc : Literal} (h : adc.fitsUnsigned 1048576 = true) :
    assembleLine (.compT adc) = some [BitVec.ofNat 64 (0x2 * 2 ^ 60 + (literalBits 20 adc).toNat)] :=
  assembleLine_of_single h rfl (toNat_encode_compT _)

theorem assembleLine_compP {adc : Literal} (h : adc.fitsUnsigned 1048576 = true) :
    assembleLine (.compP adc) = some [BitVec.ofNat 64 (0x3 * 2 ^ 60 + (literalBits 20 adc).toNat)] :=
  assembleLine_of_single h rfl (toNat_encode_compP _)

theorem assembleLine_compH {adc : Literal} (h : adc.fitsUnsigned 65536 = true) :
    assembleLine (.compH adc) = some [BitVec.ofNat 64 (0x4 * 2 ^ 60 + (literalBits 16 adc).toNat)] :=
  assembleLine_of_single h rfl (toNat_encode_compH _)

theorem assembleLine_setTfine {tf : Literal} (h : tf.fitsSigned32 = true) :
    assembleLine (.setTfine tf) = some [BitVec.ofNat 64 (0x5 * 2 ^ 60 + (literalBits 32 tf).toNat)] :=
  assembleLine_of_single h rfl (toNat_encode_setTfine _)

/-- A line with the checks and the commands of three lines assembles to their words in order. -/
theorem assembleLine_of_three {l l₁ l₂ l₃ : SourceLine}
    (hwf : l.wellFormed = (l₁.wellFormed && l₂.wellFormed && l₃.wellFormed))
    (hexpand : expandLine l = expandLine l₁ ++ expandLine l₂ ++ expandLine l₃) :
    assembleLine l =
      match assembleLine l₁, assembleLine l₂, assembleLine l₃ with
      | some x, some y, some z => some (x ++ y ++ z)
      | _, _, _ => none := by
  rw [assembleLine, assembleLine, assembleLine, assembleLine, hwf, hexpand, List.map_append, List.map_append]
  cases l₁.wellFormed <;> cases l₂.wellFormed <;> cases l₃.wellFormed <;> rfl

/-! ## The obligations -/

/-- Settles O2: a packed word gives back its OP and ARG, with RSV 0, and a zero-extended operand its low field. -/
theorem decodeOfEncode : Obligations.DecodeOfEncode := decode_encode

/-- Settles O3: a word that decodes is packed from its OP and ARG, and the bits of ARG outside the operand are 0. -/
theorem encodeOfDecode : Obligations.EncodeOfDecode := fun _ _ => encode_of_decode

/-- Settles O4: a selected word is its row's match with an operand, and a command's word selects its mnemonic's row. -/
theorem decodeFollowsOpcodeTable : Obligations.DecodeFollowsOpcodeTable := fun _ _ => rowSelected_iff_decode

/-- Settles O5: the rows that a word selects bear the mnemonic of the one command it decodes to. -/
theorem illegalWordsAreExactlyThese : Obligations.IllegalWordsAreExactlyThese := fun w =>
  ⟨fun _ h₁ _ h₂ => rowSelected_unique h₁ h₂, no_rowSelected_iff_illegal w,
    (no_rowSelected_iff_illegal w).symm.trans (no_rowSelected_iff_fields w),
    fun ⟨_, he⟩ => issueCommand_of_illegal he⟩

/-- Settles O6: the word is the command's one encoding, a number whose low bits are the operand. -/
theorem operandAssembly : Obligations.OperandAssembly := by
  refine ⟨fun w => ⟨fun adc h => ?_, fun adc h => ?_, fun adc h => ?_, fun tf h => ?_, fun h => ?_⟩,
    fun adc => toInt_enterU adc (by decide), fun adc => toInt_enterU adc (by decide)⟩
  · have hword := toNat_of_decode h
    rw [toNat_encode_compT] at hword
    omega
  · have hword := toNat_of_decode h
    rw [toNat_encode_compP] at hword
    omega
  · have hword := toNat_of_decode h
    rw [toNat_encode_compH] at hword
    omega
  · have hword := toNat_of_decode h
    rw [toNat_encode_setTfine] at hword
    rw [toInt_eq_sext (by decide), show w.toNat % 2 ^ 32 = tf.toNat by omega]
  · obtain h | h := h <;> simp [toNat_of_decode h]

/-- Settles O50: a command's word decodes to it, and as a number it is OP and the operand's field. -/
theorem assemblerProducesOnlyLegalWords : Obligations.AssemblerProducesOnlyLegalWords := by
  refine ⟨fun l ws h w => decode_of_mem_assembleLine h, rfl, rfl, fun n hn => ?_, fun n hn => ?_, fun n hn => ?_,
    fun n hpos hn => ?_, fun n hn => ?_⟩
  · rw [assembleLine_compT (fitsUnsigned_dec.mpr hn), assembleLine_compT (fitsUnsigned_hex.mpr hn),
      assembleLine_compP (fitsUnsigned_dec.mpr hn), assembleLine_compP (fitsUnsigned_hex.mpr hn),
      toNat_literalBits_dec hn, toNat_literalBits_hex hn]
    exact ⟨rfl, rfl, rfl, rfl⟩
  · rw [assembleLine_compH (fitsUnsigned_dec.mpr hn), assembleLine_compH (fitsUnsigned_hex.mpr hn),
      toNat_literalBits_dec hn, toNat_literalBits_hex hn]
    exact ⟨rfl, rfl⟩
  · rw [assembleLine_setTfine (fitsSigned32_dec.mpr (by omega)), toNat_literalBits_dec (by omega)]
  · rw [assembleLine_setTfine (fitsSigned32_dec_neg.mpr hn), toNat_literalBits_dec_neg hpos (by omega)]
  · rw [assembleLine_setTfine (fitsSigned32_hex.mpr hn), toNat_literalBits_hex hn]

/-- Settles O1: the word is the command's, and so decodes to it. -/
theorem encodingExamples : Obligations.EncodingExamples := by
  refine ⟨⟨rfl, decode_of_encode_eq rfl⟩, ⟨rfl, decode_of_encode_eq rfl⟩, ⟨rfl, decode_of_encode_eq rfl⟩,
    ⟨rfl, decode_of_encode_eq rfl⟩, ⟨rfl, decode_of_encode_eq rfl⟩, ⟨rfl, decode_of_encode_eq rfl⟩,
    ⟨rfl, decode_of_encode_eq rfl⟩, fun i => ⟨?_, ?_, ?_⟩⟩
  · exact illegal_iff.mpr ⟨.opcode, rfl⟩ i
  · exact illegal_iff.mpr ⟨.argument, rfl⟩ i
  · exact illegal_iff.mpr ⟨.reserved, rfl⟩ i

/-- Settles O51: each line with one operand has that operand's check. -/
theorem assemblerRejectsOutOfRange : Obligations.AssemblerRejectsOutOfRange :=
  ⟨assembleLine_eq_none_iff, fun _ =>
    ⟨fitsUnsigned_dec.trans Nat.lt_succ_iff, fitsUnsigned_dec.trans Nat.lt_succ_iff,
      fitsUnsigned_dec.trans Nat.lt_succ_iff, rfl, rfl, rfl, fitsUnsigned_hex.trans Nat.lt_succ_iff,
      fitsUnsigned_hex.trans Nat.lt_succ_iff, fitsUnsigned_hex.trans Nat.lt_succ_iff, fitsSigned32_dec,
      fitsSigned32_dec_neg, fitsSigned32_hex.trans Nat.lt_succ_iff⟩⟩

/-- Settles O52: each pseudo-instruction has the checks and the commands of its three lines. -/
theorem pseudoInstructionsExpand : Obligations.PseudoInstructionsExpand :=
  ⟨fun _ _ _ => assembleLine_of_three rfl rfl, fun _ _ _ => assembleLine_of_three rfl rfl⟩

end Sys2Proof.Machine
end

section
/-! # DECODE_CAL (spec/40_calibration.md)

The command as one record update, the file it decodes from equal bytes and from given packed bytes, and the zero denominator that
COMP_P meets after an all-zero decode. -/

namespace Sys2Proof.Machine

/-- R80 to R87: the file of the image's bytes, CAL_VALID, and nothing else. -/
theorem exec_decodeCal (s : State) : exec .decodeCal s =
    .next { s with cal := decodeCoefficients s.image, status := s.status ||| 0x01#32 } := rfl

/-! ## The file of an image whose 32 calibration bytes are equal (R88) -/

theorem byteAt_eq_toNat_iff {m : Memory} {x : Nat} {b : Byte} :
    Pseudocode.byteAt m x = b.toNat ↔ m.readByte (BitVec.ofNat 8 x) = b := by
  rw [Pseudocode.byteAt, Int.natCast_inj, BitVec.toNat_inj]

/-- Every field filled with one byte: 16-bit fields hold it twice, dig_H4 takes its low nibble from the byte at 0xE5 and dig_H5
the high one (R75, R77). -/
def calOfByte (b : Byte) : Cal :=
  let twice := b ++ b
  { digT1 := twice, digT2 := twice, digT3 := twice,
    digP1 := twice, digP2 := twice, digP3 := twice, digP4 := twice, digP5 := twice,
    digP6 := twice, digP7 := twice, digP8 := twice, digP9 := twice,
    digH1 := b, digH2 := twice, digH3 := b,
    digH4 := b ++ b.extractLsb' 0 4, digH5 := b ++ b.extractLsb' 4 4, digH6 := b }

theorem decodeCoefficients_of_bytes_eq {m : Memory} {b : Byte}
    (h : ∀ a ∈ bytesReadBy .decodeCal, Pseudocode.byteAt m a = b.toNat) : decodeCoefficients m = calOfByte b := by
  simp only [bytesReadBy, List.forall_mem_cons, byteAt_eq_toNat_iff] at h
  simp [decodeCoefficients, calOfByte, u16le, h4raw, h5raw, h]

/-! ## The packed fields from their bytes (R77, R78) -/

theorem toInt_digH4_of_bytes {m : Memory} {e4 e5 : Int} (h4 : Pseudocode.byteAt m 0xE4 = e4)
    (h5 : Pseudocode.byteAt m 0xE5 = e5) :
    (decodeCoefficients m).digH4.toInt = Pseudocode.sext 12 (e4 * 16 + e5 % 16) := by
  rw [← h4, ← h5]
  exact toInt_h4raw m

theorem toInt_digH5_of_bytes {m : Memory} {e5 e6 : Int} (h5 : Pseudocode.byteAt m 0xE5 = e5)
    (h6 : Pseudocode.byteAt m 0xE6 = e6) :
    (decodeCoefficients m).digH5.toInt = Pseudocode.sext 12 (e6 * 16 + e5 / 16) := by
  rw [← h5, ← h6]
  exact toInt_h5raw m

/-! ## COMP_P with dig_P1 = 0 (R102, R103) -/

theorem pressureStages_of_denominator_zero {c : Cal} {tf : BitVec 32} (h : pressureDenominator c tf = 0#64)
    (adc : BitVec 20) : pressureStages c tf adc = 0#64 := if_pos h

/-- The denominator is a multiple of dig_P1, shifted. -/
theorem pressureDenominator_of_digP1_zero {c : Cal} (h : c.digP1 = 0#16) (tf : BitVec 32) :
    pressureDenominator c tf = 0#64 := by
  simp [pressureDenominator, h, enterU, mulW, asrW]

theorem exec_compP_of_digP1_zero {s : State} (hvalid : statusIsSet .calValid s = true) (h : s.cal.digP1 = 0#16)
    (adc : BitVec 20) : ∃ u, exec (.compP adc) s = .next u ∧ u.pOut = 0#32 := by
  refine ⟨_, exec_of_valid hvalid, ?_⟩
  rw [effectOf, performCompP_pOut, pressureStages_of_denominator_zero (pressureDenominator_of_digP1_zero h _),
    BitVec.setWidth_zero]

/-! ## The obligations -/

/-- Settles O16: the fields of the decoded file are the rules' formulas on the image's bytes. -/
theorem decodeCalWritesEveryField : Obligations.DecodeCalWritesEveryField :=
  ⟨rfl, fun s => ⟨_, exec_decodeCal s, decodeCoefficients_decodedFrom s.image⟩⟩

/-- Settles O17: equal bytes give `calOfByte`, whose dig_P1 is 0 for the byte 0; the packed fields are sums of their bytes; the file
is a function of the 32 bytes. -/
theorem decodeCalCornerCases : Obligations.DecodeCalCornerCases := by
  refine fun s => ⟨_, exec_decodeCal s, fun hzero => ?_, fun hones => ?_, fun h4 h5 h6 => ?_, fun h4 h5 h6 => ?_,
    fun m hm => ?_⟩
  · have hcal : decodeCoefficients s.image = calOfByte 0x00#8 := decodeCoefficients_of_bytes_eq hzero
    have hP1 : (decodeCoefficients s.image).digP1 = 0#16 := by rw [hcal]; rfl
    have hvalid : fieldIsSet (withField s.status .calValid) .calValid = true := by simp
    exact ⟨hcal, exec_compP_of_digP1_zero hvalid hP1⟩
  · have hcal : decodeCoefficients s.image = calOfByte 0xFF#8 := decodeCoefficients_of_bytes_eq hones
    simp only [hcal]
    decide
  · exact ⟨toInt_digH4_of_bytes h4 h5, toInt_digH5_of_bytes h5 h6⟩
  · exact ⟨toInt_digH4_of_bytes h4 h5, toInt_digH5_of_bytes h5 h6⟩
  · exact ⟨_, exec_decodeCal _, decodeCoefficients_congr hm⟩

/-- Settles O18: the bytes 0x12, 0x3A and 0x04 in the sums of R77. -/
theorem packedHumidityExample : Obligations.PackedHumidityExample := by
  refine fun s h4 h5 h6 => ⟨?_, ?_, _, exec_decodeCal s, toInt_digH4_of_bytes h4 h5, toInt_digH5_of_bytes h5 h6⟩
  · rw [Pseudocode.h4raw, h4, h5]
    rfl
  · rw [Pseudocode.h5raw, h5, h6]
    rfl

/-- Settles O43: COMP_T writes neither P_OUT nor H_OUT, with or without its fault recorded, and DECODE_CAL only the file and STATUS. -/
theorem staleResultsStay : Obligations.StaleResultsStay := by
  refine ⟨fun adc s => ?_, fun s => ⟨_, exec_decodeCal s, rfl, rfl, rfl, rfl⟩⟩
  obtain ⟨t, ht⟩ := exec_completes (.compT adc) s
  refine ⟨t, ht, ?_⟩
  obtain ⟨-, rfl⟩ | ⟨-, rfl⟩ := exec_next_cases ht <;> exact ⟨rfl, rfl⟩

end Sys2Proof.Machine
end

section
/-! # The compensation commands (spec/41_compensation.md, spec/42_session.md)

Each command as one record update with the coefficients in use; the values come from the stages on integers. -/

namespace Sys2Proof.Machine

/-! ## The effect of each command as one record update (R95, R107, R115, R121) -/

theorem withField_temperature (st : BitVec 32) : withField (withField st .tfineSet) .tValid = st ||| 0x06#32 :=
  foldl_withField_eq_or [.tfineSet, .tValid] st

theorem effectOf_compT (adc : BitVec 20) (c : Cal) (s : State) : effectOf (.compT adc) c s =
    { s with
      tFine := (temperatureStages c adc).1, tOut := (temperatureStages c adc).2, status := s.status ||| 0x06#32 } := by
  rw [effectOf, performCompT_eq, withField_temperature]

theorem effectOf_compP (adc : BitVec 20) (c : Cal) (s : State) : effectOf (.compP adc) c s =
    { s with pOut := (pressureStages c s.tFine adc).setWidth 32, status := s.status ||| 0x08#32 } := by
  rw [effectOf, performCompP_eq, withField_pValid]

theorem effectOf_compH (adc : BitVec 16) (c : Cal) (s : State) : effectOf (.compH adc) c s =
    { s with hOut := humidityResult (humidityStages c s.tFine adc), status := s.status ||| 0x10#32 } := by
  rw [effectOf, performCompH_eq, withField_hValid]

/-- COMP_RAW computes with one file throughout (R121). -/
theorem effectOf_compRaw_eq_three (c : Cal) (s : State) : effectOf .compRaw c s =
    effectOf (.compH (rawAdcH s.image)) c
      (effectOf (.compP (rawAdcP s.image)) c (effectOf (.compT (rawAdcT s.image)) c s)) := rfl

/-- The pressure and the humidity are those of the T_FINE that the command's own COMP_T step wrote (R122). -/
theorem effectOf_compRaw (c : Cal) (s : State) : effectOf .compRaw c s =
    { s with
      tFine := (temperatureStages c (rawAdcT s.image)).1
      tOut := (temperatureStages c (rawAdcT s.image)).2
      pOut := (pressureStages c (temperatureStages c (rawAdcT s.image)).1 (rawAdcP s.image)).setWidth 32
      hOut := humidityResult (humidityStages c (temperatureStages c (rawAdcT s.image)).1 (rawAdcH s.image))
      status := s.status ||| 0x1E#32 } := by
  rw [effectOf_compRaw_eq_three, effectOf_compH, effectOf_compP, effectOf_compT, BitVec.or_assoc, BitVec.or_assoc]
  rfl

/-! ## Each command with its results given -/

theorem exec_compT_of_stages {adc : BitVec 20} {s : State} {tf t : BitVec 32} (hvalid : statusIsSet .calValid s = true)
    (h : temperatureStages s.cal adc = (tf, t)) :
    exec (.compT adc) s = .next { s with tFine := tf, tOut := t, status := s.status ||| 0x06#32 } := by
  rw [exec_of_valid hvalid, effectOf_compT, h]

theorem exec_compP_of_stages {adc : BitVec 20} {s : State} {p : BitVec 32} (hvalid : statusIsSet .calValid s = true)
    (h : (pressureStages s.cal s.tFine adc).setWidth 32 = p) :
    exec (.compP adc) s = .next { s with pOut := p, status := s.status ||| 0x08#32 } := by
  rw [exec_of_valid hvalid, effectOf_compP, h]

theorem exec_compH_of_stages {adc : BitVec 16} {s : State} {p : BitVec 32} (hvalid : statusIsSet .calValid s = true)
    (h : humidityResult (humidityStages s.cal s.tFine adc) = p) :
    exec (.compH adc) s = .next { s with hOut := p, status := s.status ||| 0x10#32 } := by
  rw [exec_of_valid hvalid, effectOf_compH, h]

/-! ## T_OUT from T_FINE (R93, R98) -/

theorem toInt_temperatureStages_tFine (c : Cal) (adc : BitVec 20) :
    (temperatureStages c adc).1.toInt = (Pseudocode.temperature c adc.toNat).1 :=
  congrArg Prod.fst (toInt_temperatureStages c adc)

theorem toInt_temperatureStages_tOut (c : Cal) (adc : BitVec 20) :
    (temperatureStages c adc).2.toInt = (Pseudocode.temperature c adc.toNat).2 :=
  congrArg Prod.snd (toInt_temperatureStages c adc)

theorem wrap_of_fits {v : Int} (hlo : -(2 ^ 31) ≤ v) (hhi : v < 2 ^ 31) : Pseudocode.wrap 32 v = v := by
  rw [Pseudocode.wrap]
  omega

/-- Only the wrap of the whole sum matters, not that of the product in it. -/
theorem add_mul_eq_wrap (a b k : Int) :
    Pseudocode.add 32 (Pseudocode.mul 32 a b) k = Pseudocode.wrap 32 (a * b + k) := by
  rw [Pseudocode.add, Pseudocode.mul, wrap_eq_bmod 32 (by decide), wrap_eq_bmod 32 (by decide),
    wrap_eq_bmod 32 (by decide), Int.bmod_add_bmod]

theorem temperature_scaling (c : Cal) (adc : Int) : (Pseudocode.temperature c adc).2 =
    Pseudocode.asr (Pseudocode.add 32 (Pseudocode.mul 32 (Pseudocode.temperature c adc).1 5) 128) 8 := by
  rw [Pseudocode.temperature, Pseudocode.compT]

/-- T_OUT in closed form where `5*tf + 128` does not wrap. -/
theorem temperatureStages_tOut_of_fits {c : Cal} {adc : BitVec 20}
    (hlo : -(2 ^ 31) ≤ 5 * (temperatureStages c adc).1.toInt + 128)
    (hhi : 5 * (temperatureStages c adc).1.toInt + 128 < 2 ^ 31) :
    (temperatureStages c adc).2.toInt = Int.fdiv (5 * (temperatureStages c adc).1.toInt + 128) 256 := by
  rw [toInt_temperatureStages_tOut, temperature_scaling, ← toInt_temperatureStages_tFine, add_mul_eq_wrap, Int.mul_comm,
    wrap_of_fits hlo hhi, Pseudocode.asr]
  norm_num

/-- `|tf| ≤ 429496703` keeps `5*tf + 128` within an s32. -/
theorem temperatureStages_tOut_of_abs_le {c : Cal} {adc : BitVec 20}
    (h : |(temperatureStages c adc).1.toInt| ≤ 429496703) :
    (temperatureStages c adc).2.toInt = Int.fdiv (5 * (temperatureStages c adc).1.toInt + 128) 256 := by
  obtain ⟨hlo, hhi⟩ := abs_le.mp h
  exact temperatureStages_tOut_of_fits (by omega) (by omega)

/-- An ADC code shifted right by `k` keeps its high `20 - k` bits (R98). -/
theorem toInt_asrW_code (adc : BitVec 20) (k : Nat) : (asrW (enterU 32 adc) k).toInt = adc.toNat / 2 ^ k := by
  rw [toInt_asrW, toInt_enterU _ (by decide), Pseudocode.asr, Int.fdiv_eq_ediv_of_nonneg _ (by positivity)]

/-! ## The obligations on COMP_T -/

/-- Settles O20: the stages on bit patterns are those on integers, with CAL or with the free file. -/
theorem compTComputesTemperature : Obligations.CompTComputesTemperature := by
  refine ⟨toNat_encode_compT, fun adc s hvalid => ⟨_, _, exec_compT_of_stages hvalid rfl,
    toInt_temperatureStages_tFine _ _, toInt_temperatureStages_tOut _ _⟩, fun adc s hnot => ?_⟩
  refine ⟨Config.unspecifiedCal s.freeDraws, _, _, ?_, toInt_temperatureStages_tFine _ _, toInt_temperatureStages_tOut _ _⟩
  rw [exec_of_not_valid rfl hnot, effectOf_compT]
  rfl

/-- Settles O21: the wrap of `5*tf + 128` is the one thing between T_OUT and the closed form. -/
theorem compTScaling : Obligations.CompTScaling := by
  refine ⟨fun adc => ?_, fun adc s hvalid => ⟨_, exec_compT_of_stages hvalid rfl, temperatureStages_tOut_of_fits,
    temperatureStages_tOut_of_abs_le⟩⟩
  have hlt := adc.isLt
  simp only [toInt_asrW_code, Set.mem_Icc]
  omega

/-- The stages use the file's three temperature coefficients alone. -/
theorem temperatureStages_congr {c c' : Cal} (h1 : c.digT1 = c'.digT1) (h2 : c.digT2 = c'.digT2)
    (h3 : c.digT3 = c'.digT3) (adc : BitVec 20) : temperatureStages c adc = temperatureStages c' adc := by
  simp only [temperatureStages, h1, h2, h3]

/-- The largest value of each temperature coefficient, with CAL-A's other fields. -/
def calMaxT : Cal := { calA with digT1 := 65535#16, digT2 := 32767#16, digT3 := 32767#16 }

/-- Settles O22: each row is one evaluation of the stages. -/
theorem compTVectors : Obligations.CompTVectors := by
  refine fun s hvalid => ⟨fun hcal => ?_, fun hcal => ?_, fun h1 h2 h3 => ?_⟩
  · have hrow {adc tf t} (h : temperatureStages calA adc = (tf, t)) := exec_compT_of_stages hvalid (hcal ▸ h)
    exact ⟨hrow (by decide), hrow (by decide), hrow (by decide), hrow (by decide), hrow (by decide), hrow (by decide)⟩
  · have hrow {adc tf t} (h : temperatureStages { calA with digT1 := 0#16 } adc = (tf, t)) :=
      exec_compT_of_stages hvalid (hcal ▸ h)
    exact ⟨hrow (by decide), hrow (by decide)⟩
  · have hcal := temperatureStages_congr (c := s.cal) (c' := calMaxT) (BitVec.eq_of_toNat_eq h1)
      (BitVec.eq_of_toInt_eq h2) (BitVec.eq_of_toInt_eq h3)
    exact ⟨exec_compT_of_stages hvalid ((hcal _).trans (by decide)),
      exec_compT_of_stages hvalid ((hcal _).trans (by decide))⟩

/-! ## The obligations on COMP_P -/

/-- Settles O23: P_OUT is the low half of the stages' result, with CAL or with the free file. -/
theorem compPComputesPressure : Obligations.CompPComputesPressure := by
  refine ⟨toNat_encode_compP, fun adc s hvalid => ⟨_, exec_compP_of_stages hvalid rfl, toNat_pressure _ _ _⟩,
    fun adc s hnot => ⟨Config.unspecifiedCal s.freeDraws, _, ?_, toNat_pressure _ _ _⟩⟩
  rw [exec_of_not_valid rfl hnot, effectOf_compP]
  rfl

/-- Settles O24: the machine's denominator is 0 exactly where the rule's `var1` is. -/
theorem zeroDenominatorGivesSentinel : Obligations.ZeroDenominatorGivesSentinel := by
  refine fun adc s hvalid => ⟨fun hzero => exec_compP_of_stages hvalid ?_, fun hP1 => ?_⟩
  · rw [pressureStages_of_denominator_zero ((pressureDenominator_eq_zero_iff _ _).mpr hzero), BitVec.setWidth_zero]
  · exact (pressureDenominator_eq_zero_iff _ _).mp (pressureDenominator_of_digP1_zero hP1 _)

/-- Settles O25: each row is one evaluation of the stages. -/
theorem compPVectors : Obligations.CompPVectors := by
  intro s hvalid hcal v hv htf
  have htFine : s.tFine = BitVec.ofInt 32 v.1 := by rw [← htf, BitVec.ofInt_toInt]
  apply exec_compP_of_stages hvalid
  rw [hcal, htFine]
  clear htf htFine
  revert v
  decide

/-! ## The obligations on COMP_H -/

/-- Settles O26: H_OUT is the stages' result, clamped and shifted, with CAL or with the free file. -/
theorem compHComputesHumidity : Obligations.CompHComputesHumidity := by
  refine ⟨toNat_encode_compH,
    fun adc s hvalid => ⟨_, exec_compH_of_stages hvalid rfl, toNat_humidity _ _ _, humidityResult_le _⟩,
    fun adc s hnot => ⟨Config.unspecifiedCal s.freeDraws, _, ?_, toNat_humidity _ _ _⟩⟩
  rw [exec_of_not_valid rfl hnot, effectOf_compH]
  rfl

/-- Settles O28: each row is one evaluation of the stages. -/
theorem compHVectors : Obligations.CompHVectors := by
  refine fun s hvalid => ⟨fun hcal v hv htf => ?_, fun hcal htf => ?_⟩
  · have htFine : s.tFine = BitVec.ofInt 32 v.1 := by rw [← htf, BitVec.ofInt_toInt]
    apply exec_compH_of_stages hvalid
    rw [hcal, htFine]
    clear htf htFine
    revert v
    decide
  · have htFine : s.tFine = 128422#32 := BitVec.eq_of_toInt_eq htf
    apply exec_compH_of_stages hvalid
    rw [hcal, htFine]
    decide

/-! ## COMP_RAW (R121, R122) -/

theorem exec_of_valid_of_cal {i : Instr} {c : Cal} {s : State} (hvalid : statusIsSet .calValid s = true)
    (hcal : s.cal = c) : exec i s = .next (effectOf i c s) := hcal ▸ exec_of_valid hvalid

theorem calValid_effectOf {i : Instr} {c : Cal} {s : State} (h : statusIsSet .calValid s = true) :
    statusIsSet .calValid (effectOf i c s) = true := by
  rw [statusIsSet_effectOf, h, Bool.true_or]

/-- Settles O32: COMP_RAW's effect is the three effects one after the other; CAL_VALID and CAL stay between them. -/
theorem compRawIsTheThreeCompensations : Obligations.CompRawIsTheThreeCompensations := by
  refine ⟨rfl, fun s hvalid => ?_, fun s hnot => ?_⟩
  · exact ⟨rawAdcT s.image, rawAdcP s.image, rawAdcH s.image, _, _, _, toNat_rawAdcT _, toNat_rawAdcP _, toNat_rawAdcH _,
      exec_of_valid hvalid, exec_of_valid_of_cal (calValid_effectOf hvalid) rfl,
      exec_of_valid_of_cal (calValid_effectOf (calValid_effectOf hvalid)) rfl,
      exec_of_valid hvalid, effectOf_compRaw _ _⟩
  · have hexec := exec_of_not_valid (i := .compRaw) rfl hnot
    rw [effectOf_compRaw] at hexec
    rw [← toNat_rawAdcT, ← toNat_rawAdcP, ← toNat_rawAdcH]
    exact ⟨_, _, _, _, _, hexec, toInt_temperatureStages_tFine _ _, toInt_temperatureStages_tOut _ _,
      toNat_pressure _ _ _, toNat_humidity _ _ _⟩

/-! ## Without a calibration (R92, R129) -/

/-- A compensation reads neither CAL (its file is given), nor STATUS, nor the fault record. -/
theorem effectOf_of_needsCalibration {i : Instr} (hi : needsCalibration i = true) (c c' : Cal) (st : BitVec 32)
    (faults : List ModelFault) (n : Nat) (s : State) :
    effectOf i c { s with cal := c', status := st, modelFaults := faults, freeDraws := n } =
      { effectOf i c s with
        cal := c', status := (fieldsSetBy i).foldl withField st, modelFaults := faults, freeDraws := n } := by
  cases i with
  | decodeCal | setTfine => cases hi
  | compT | compP | compH | compRaw => rfl

theorem calValid_mem_fieldsSetBy_iff {i : Instr} : .calValid ∈ fieldsSetBy i ↔ i = .decodeCal := by
  cases i <;> simp [fieldsSetBy]

theorem tfineSet_mem_fieldsSetBy_iff {i : Instr} :
    .tfineSet ∈ fieldsSetBy i ↔ i = .compRaw ∨ (∃ adc, i = .compT adc) ∨ ∃ tf, i = .setTfine tf := by
  cases i <;> simp [fieldsSetBy]

theorem fieldIsSet_withField_self (st : BitVec 32) (f : StatusField) : fieldIsSet (withField st f) f = true := by simp

theorem clear_calValid {st : BitVec 32} (h : fieldIsSet st .calValid = false) :
    (st ||| 0x01#32) &&& 0xFFFFFFFE#32 = st := by
  have hmask : 0xFFFFFFFE#32 = ~~~0x01#32 := rfl
  apply BitVec.eq_of_getLsbD_eq
  intro k hk
  by_cases hk0 : k = 0
  · rw [BitVec.getLsbD_and, hk0, show st.getLsbD 0 = false from h]
    simp
  · rw [BitVec.getLsbD_and, BitVec.getLsbD_or, hmask, BitVec.getLsbD_not]
    simp [hk, hk0]

/-- CAL_VALID set first and cleared last is no part of what the other fields make of STATUS. -/
theorem foldl_withField_clear_calValid {st : BitVec 32} {fs : List StatusField} (hst : fieldIsSet st .calValid = false)
    (hfs : .calValid ∉ fs) : fs.foldl withField (st ||| 0x01#32) &&& 0xFFFFFFFE#32 = fs.foldl withField st := by
  have hclear : fieldIsSet (fs.foldl withField st) .calValid = false := by
    rw [fieldIsSet_foldl_withField, hst, decide_eq_false hfs, Bool.or_false]
  rw [foldl_withField_eq_or, BitVec.or_assoc, BitVec.or_comm 0x01#32, ← BitVec.or_assoc, ← foldl_withField_eq_or,
    clear_calValid hclear]

/-- Settles O35: the free file is the one the command computes with, and its effect reads nothing else that differs. -/
theorem uncalibratedUseFaults : Obligations.UncalibratedUseFaults := by
  refine fun s hnot => ⟨Config.unspecifiedCal s.freeDraws, fun i hi => ?_⟩
  have hneeds := needsCalibration_iff.mpr hi
  have hmem : .calValid ∉ fieldsSetBy i := by
    rw [calValid_mem_fieldsSetBy_iff]
    rintro rfl
    cases hneeds
  rw [exec_of_not_valid hneeds hnot]
  generalize Config.unspecifiedCal s.freeDraws = c
  have hfaulted : effectOf i c (noteModelFault .uninitCal s) = _ :=
    effectOf_of_needsCalibration hneeds c s.cal s.status (s.modelFaults ++ [ModelFault.uninitCal]) (s.freeDraws + 1) s
  have hvalid : statusIsSet .calValid { s with cal := c, status := s.status ||| 0x01#32 } = true :=
    fieldIsSet_withField_self s.status .calValid
  have hcalibrated : exec i { s with cal := c, status := s.status ||| 0x01#32 } = _ :=
    (exec_of_valid_of_cal hvalid rfl).trans (congrArg _
      (effectOf_of_needsCalibration hneeds c c (s.status ||| 0x01#32) s.modelFaults s.freeDraws s))
  rw [hfaulted, hcalibrated, onNext, foldl_withField_clear_calValid hnot hmem]

/-! ## After a reset (R142, R145) -/

theorem exists_command_of_field_set {m : HostMove} {st : BitVec 32} {f : StatusField} (hf : f ≠ .ill)
    (hst : fieldIsSet st f = false) (h : fieldIsSet (statusAfter st m) f = true) :
    ∃ w i, m = .command w ∧ decode w = .ok i ∧ f ∈ fieldsSetBy i := by
  cases m with
  | command w =>
    cases hw : decode w with
    | ok i =>
      rw [statusAfter, hw] at h
      refine ⟨w, i, rfl, hw, ?_⟩
      simpa [fieldIsSet_foldl_withField, hst] using h
    | error e =>
      rw [statusAfter, hw] at h
      simp [hst, hf] at h
  | read index => simp [statusAfter, hst] at h
  | supply a b => simp [statusAfter, hst] at h
  | reset => simp [statusAfter] at h

/-- A field of STATUS other than ILL becomes 1 only by a command that sets it (R36). -/
theorem step_keeps_field_clear {s t : State} {f : StatusField} (hf : f ≠ .ill) (hs : statusIsSet f s = false)
    (h : step s = .next t) : statusIsSet f t = false ∨
      ∃ w rest i, s.pending = .command w :: rest ∧ decode w = .ok i ∧ f ∈ fieldsSetBy i := by
  have hstatus := step_status h
  cases hp : s.pending with
  | nil =>
    rw [hp] at hstatus
    exact .inl (by rwa [statusIsSet, hstatus])
  | cons m rest =>
    rw [hp] at hstatus
    cases hset : statusIsSet f t with
    | false => exact .inl rfl
    | true =>
      rw [statusIsSet, hstatus] at hset
      obtain ⟨w, i, rfl, hi, hmem⟩ := exists_command_of_field_set hf hs hset
      exact .inr ⟨w, rest, i, rfl, hi, hmem⟩

/-- T_FINE is written by a reset, with 0, and by the commands that set TFINE_SET (R32, R142). -/
theorem step_tFine {s t : State} (h : step s = .next t) : t.tFine = s.tFine ∨ t.tFine = 0#32 ∨
    ∃ w rest i, s.pending = .command w :: rest ∧ decode w = .ok i ∧ .tfineSet ∈ fieldsSetBy i := by
  obtain ⟨-, rfl⟩ | ⟨m, rest, hp, hm⟩ := step_next_cases h
  · exact .inl rfl
  · obtain ⟨w, i, rfl, hi, hexec⟩ | ⟨w, e, -, -, rfl⟩ | ⟨index, w, -, -, rfl⟩ | ⟨index, f, -, -, rfl⟩ | ⟨a, b, -, rfl⟩ |
      ⟨-, rfl⟩ := hm
    · by_cases hmem : .tfineSet ∈ fieldsSetBy i
      · exact .inr (.inr ⟨w, rest, i, hp, hi, hmem⟩)
      · obtain ⟨s₀, hs₀, htFine, -⟩ := exists_exec_eq_effectOf i (writePending rest s)
        obtain rfl := Host.Outcome.next.inj (hs₀.symm.trans hexec)
        exact .inl ((effectOf_tFine_of_not_sets i _ s₀ hmem).trans htFine)
    · exact .inl rfl
    · exact .inl rfl
    · exact .inl rfl
    · exact .inl rfl
    · exact .inr (.inl rfl)

/-- Settles O46: the writers of CAL_VALID, TFINE_SET and T_FINE, and the commands' results for T_FINE = 0. -/
theorem stateAfterReset : Obligations.StateAfterReset := by
  refine ⟨⟨rfl, rfl⟩, fun s rest hp => ⟨_, step_of_pending_cons hp, rfl, rfl⟩, fun s t hnot h => ?_, fun s i hnot hi => ?_,
    fun s => ⟨fun tf => ⟨_, rfl, rfl⟩, _, exec_decodeCal s, rfl, fieldIsSet_withField_self s.status .calValid, rfl⟩,
    fun s t hnot hzero h => ?_,
    fun s hvalid hzero => ⟨fun adc => ⟨_, exec_compP_of_stages hvalid rfl, ?_⟩,
      fun adc => ⟨_, exec_compH_of_stages hvalid rfl, ?_⟩⟩⟩
  · obtain hclear | ⟨w, rest, i, hp, hi, hmem⟩ := step_keeps_field_clear (f := .calValid) (by decide) hnot h
    · exact .inl hclear
    · exact .inr ⟨w, rest, hp, calValid_mem_fieldsSetBy_iff.mp hmem ▸ hi⟩
  · refine ⟨_, exec_of_not_valid (needsCalibration_iff.mpr hi) hnot, ?_⟩
    rw [effectOf_modelFaults, noteModelFault_modelFaults]
  · obtain hclear | ⟨w, rest, i, hp, hi, hmem⟩ := step_keeps_field_clear (f := .tfineSet) (by decide) hnot h
    · obtain hsame | hreset | ⟨w, rest, i, hp, hi, hmem⟩ := step_tFine h
      · exact .inl ⟨hclear, hsame.trans hzero⟩
      · exact .inl ⟨hclear, hreset⟩
      · exact .inr ⟨w, rest, i, hp, hi, tfineSet_mem_fieldsSetBy_iff.mp hmem⟩
    · exact .inr ⟨w, rest, i, hp, hi, tfineSet_mem_fieldsSetBy_iff.mp hmem⟩
  · have hresult := toNat_pressure s.cal s.tFine adc
    rwa [hzero, BitVec.toInt_zero, ← hzero] at hresult
  · have hresult := toNat_humidity s.cal s.tFine adc
    rwa [hzero, BitVec.toInt_zero, ← hzero] at hresult

end Sys2Proof.Machine
end

section
/-! # SET_TFINE and COMP_RAW (spec/42_session.md)

The codes of COMP_RAW from given bytes, and its effect as a function of those codes. -/

namespace Sys2Proof.Machine

/-! ## The raw codes (R49, R50, R120) -/

theorem rawAdcT_eq_iff {m : Memory} {v : BitVec 20} : rawAdcT m = v ↔ Pseudocode.raw20 m 0xFA = v.toNat := by
  rw [← toNat_rawAdcT, Int.natCast_inj, BitVec.toNat_inj]

theorem rawAdcP_eq_iff {m : Memory} {v : BitVec 20} : rawAdcP m = v ↔ Pseudocode.raw20 m 0xF7 = v.toNat := by
  rw [← toNat_rawAdcP, Int.natCast_inj, BitVec.toNat_inj]

theorem rawAdcH_eq_iff {m : Memory} {v : BitVec 16} : rawAdcH m = v ↔ Pseudocode.raw16 m = v.toNat := by
  rw [← toNat_rawAdcH, Int.natCast_inj, BitVec.toNat_inj]

/-- Of 0xF9 and 0xFC only the high nibble counts (R123). -/
theorem rawAdc_congr_highNibble {m m' : Memory}
    (hbyte : ∀ a ∈ [0xF7, 0xF8, 0xFA, 0xFB, 0xFD, 0xFE], Pseudocode.byteAt m a = Pseudocode.byteAt m' a)
    (hnibble : ∀ a ∈ [0xF9, 0xFC], Pseudocode.byteAt m a / 16 = Pseudocode.byteAt m' a / 16) :
    rawAdcT m = rawAdcT m' ∧ rawAdcP m = rawAdcP m' ∧ rawAdcH m = rawAdcH m' := by
  simp only [List.forall_mem_cons] at hbyte hnibble
  rw [rawAdcT_eq_iff, rawAdcP_eq_iff, rawAdcH_eq_iff, toNat_rawAdcT, toNat_rawAdcP, toNat_rawAdcH]
  simp [Pseudocode.raw20, Pseudocode.raw16, hbyte, hnibble]

theorem rawAdc_of_bytes_eq {m : Memory} {b : Byte}
    (h : ∀ a ∈ bytesReadBy .compRaw, Pseudocode.byteAt m a = b.toNat) :
    rawAdcT m = b ++ b ++ b.extractLsb' 4 4 ∧ rawAdcP m = b ++ b ++ b.extractLsb' 4 4 ∧ rawAdcH m = b ++ b := by
  simp only [bytesReadBy, List.forall_mem_cons, byteAt_eq_toNat_iff] at h
  simp [rawAdcT, rawAdcP, rawAdcH, raw20, h]

/-! ## COMP_RAW's effect (R121, R122) -/

/-- COMP_RAW uses the image for its three codes alone. -/
theorem effectOf_compRaw_with_image {s : State} {m : Memory} (c : Cal)
    (h : rawAdcT m = rawAdcT s.image ∧ rawAdcP m = rawAdcP s.image ∧ rawAdcH m = rawAdcH s.image) :
    effectOf .compRaw c { s with image := m } = { effectOf .compRaw c s with image := m } := by
  obtain ⟨hT, hP, hH⟩ := h
  rw [effectOf_compRaw, effectOf_compRaw, hT, hP, hH]

theorem effectOf_compRaw_tOut (c : Cal) (s : State) :
    (effectOf .compRaw c s).tOut = (effectOf (.compT (rawAdcT s.image)) c s).tOut := by
  rw [effectOf_compRaw, effectOf_compT]

/-- The COMP_P between COMP_T and COMP_H has no part in the humidity. -/
theorem effectOf_compRaw_hOut (c : Cal) (s : State) : (effectOf .compRaw c s).hOut =
    (effectOf (.compH (rawAdcH s.image)) c (effectOf (.compT (rawAdcT s.image)) c s)).hOut := by
  rw [effectOf_compRaw, effectOf_compH, effectOf_compT]

theorem effectOf_compRaw_pOut_of_digP1_zero {c : Cal} (h : c.digP1 = 0#16) (s : State) :
    (effectOf .compRaw c s).pOut = 0#32 := by
  rw [effectOf_compRaw]
  simp only [pressureStages_of_denominator_zero (pressureDenominator_of_digP1_zero h _), BitVec.setWidth_zero]

theorem exec_compRaw_of_stages {s : State} {c : Cal} {adcT adcP : BitVec 20} {adcH : BitVec 16} {tf t p h : BitVec 32}
    (hvalid : statusIsSet .calValid s = true) (hcal : s.cal = c)
    (hcodes : rawAdcT s.image = adcT ∧ rawAdcP s.image = adcP ∧ rawAdcH s.image = adcH)
    (htemp : temperatureStages c adcT = (tf, t)) (hpress : (pressureStages c tf adcP).setWidth 32 = p)
    (hhum : humidityResult (humidityStages c tf adcH) = h) :
    exec .compRaw s =
      .next { s with tFine := tf, tOut := t, pOut := p, hOut := h, status := s.status ||| 0x1E#32 } := by
  obtain ⟨hT, hP, hH⟩ := hcodes
  rw [exec_of_valid_of_cal hvalid hcal, effectOf_compRaw, hT, hP, hH, htemp, hpress, hhum]

/-! ## The obligations -/

/-- Settles O33: COMP_RAW is a function of the three codes; the low nibbles of 0xF9 and 0xFC are in none of them, and dig_P1 is in
the pressure alone. -/
theorem compRawCornerCases : Obligations.CompRawCornerCases := by
  refine fun s hvalid => ⟨fun m hbyte hnibble => ⟨_, exec_of_valid hvalid, ?_⟩, rawAdc_of_bytes_eq (b := 0x00#8),
    rawAdc_of_bytes_eq (b := 0xFF#8), fun hP1 => ?_⟩
  · have hcodes := rawAdc_congr_highNibble hbyte hnibble
    have hvalid' : statusIsSet .calValid { s with image := m } = true := hvalid
    rw [exec_of_valid hvalid', effectOf_compRaw_with_image _ hcodes]
  · exact ⟨_, _, _, exec_of_valid hvalid, effectOf_compRaw_pOut_of_digP1_zero hP1 s,
      exec_of_valid hvalid, effectOf_compRaw_tOut _ s,
      exec_of_valid_of_cal (calValid_effectOf hvalid) rfl, effectOf_compRaw_hOut _ s⟩

/-- Settles O30: SET_TFINE asks for no coefficients, and TFINE_SET is bit 1 of STATUS. -/
theorem setTfineLoadsTFine : Obligations.SetTfineLoadsTFine :=
  fun tf _ => ⟨toNat_encode_setTfine tf, rfl⟩

/-- Settles O34: the codes are sums of the given bytes, and each result is one evaluation of its stages. -/
theorem compRawExample : Obligations.CompRawExample := by
  intro s hvalid hcal f7 f8 f9 fa fb fc fd fe
  have hP : rawAdcP s.image = 415148#20 := by
    rw [rawAdcP_eq_iff, Pseudocode.raw20, f7, f8, f9]
    rfl
  have hT : rawAdcT s.image = 519888#20 := by
    rw [rawAdcT_eq_iff, Pseudocode.raw20, fa, fb, fc]
    rfl
  have hH : rawAdcH s.image = 30000#16 := by
    rw [rawAdcH_eq_iff, Pseudocode.raw16, fd, fe]
    rfl
  exact ⟨hP, hT, hH, exec_compRaw_of_stages hvalid hcal ⟨hT, hP, hH⟩ (by decide) (by decide) (by decide)⟩

end Sys2Proof.Machine
end

section
/-! # Illegal commands (spec/60_exceptions.md R127)

A command reads no field of STATUS but CAL_VALID, and a field it sets may be set before another or after it; so a command with
ILL set first is the command with ILL set last. -/

namespace Sys2Proof.Machine

theorem foldl_withField_withField (fs : List StatusField) (st : BitVec 32) (f : StatusField) :
    fs.foldl withField (withField st f) = withField (fs.foldl withField st) f := by
  rw [foldl_withField_eq_or fs (withField st f), foldl_withField_eq_or fs st, withField, withField, BitVec.or_assoc,
    BitVec.or_comm (BitVec.twoPow _ _), ← BitVec.or_assoc]

/-! ## Setting a field before a command or after it (R36, R92, R131) -/

/-- The effect of a command does not read STATUS. -/
theorem effectOf_with_status (i : Instr) (c : Cal) (st : BitVec 32) (s : State) :
    effectOf i c { s with status := st } = { effectOf i c s with status := (fieldsSetBy i).foldl withField st } := by
  cases i <;> rfl

theorem effectOf_setStatus (i : Instr) (c : Cal) (f : StatusField) (s : State) :
    effectOf i c (setStatus f s) = setStatus f (effectOf i c s) :=
  calc effectOf i c (setStatus f s)
    _ = { effectOf i c s with status := (fieldsSetBy i).foldl withField (withField s.status f) } :=
      effectOf_with_status i c (withField s.status f) s
    _ = setStatus f (effectOf i c s) := by rw [foldl_withField_withField, setStatus, effectOf_status]

section
variable {f : StatusField} (hf : f ≠ .calValid)
include hf

theorem calValid_setStatus_of_ne (s : State) : statusIsSet .calValid (setStatus f s) = statusIsSet .calValid s := by
  simp [statusIsSet, hf.symm]

theorem coefficientsInUse_setStatus_of_ne (s : State) : coefficientsInUse (setStatus f s) = coefficientsInUse s := by
  rw [coefficientsInUse, coefficientsInUse, calValid_setStatus_of_ne hf, setStatus_cal, setStatus_freeDraws]

theorem checkCalibration_setStatus_of_ne (s : State) :
    checkCalibration (setStatus f s) = setStatus f (checkCalibration s) := by
  rw [checkCalibration, checkCalibration, calValid_setStatus_of_ne hf, apply_ite (setStatus f)]
  rfl

/-- CAL_VALID decides the file in use and the fault recorded; every other field is only carried along. -/
theorem exec_setStatus_of_ne (i : Instr) (s : State) :
    exec i (setStatus f s) = onNext (setStatus f) (exec i s) := by
  rw [exec_eq, exec_eq]
  split
  · rw [withCalibration, coefficientsInUse_setStatus_of_ne hf, checkCalibration_setStatus_of_ne hf, effectOf_setStatus]
    rfl
  · rw [effectOf_setStatus]
    rfl

end

/-! ## ILL stays until a reset (R36, R127) -/

theorem step_keeps_ill {s t : State} (hill : statusIsSet .ill s = true) (h : step s = .next t) :
    statusIsSet .ill t = true ∨ ∃ rest, s.pending = .reset :: rest := by
  rw [statusIsSet, step_status h]
  cases s.pending with
  | nil => exact .inl hill
  | cons m rest =>
    by_cases hm : m = .reset
    · exact .inr ⟨rest, hm ▸ rfl⟩
    · exact .inl (ill_statusAfter_iff.mpr (.inl ⟨hill, hm⟩))

/-- Settles O10: an illegal word's step sets ILL alone, no move but a reset clears it, and no command reads it. -/
theorem illegalCommandSetsOnlyIll : Obligations.IllegalCommandSetsOnlyIll :=
  ⟨fun _ _ _ => step_of_illegal, fun _ _ => step_keeps_ill, exec_setStatus_of_ne (f := .ill) (by decide)⟩

end Sys2Proof.Machine
end

section
/-! # Reset and hazards (spec/70_reset_and_hazards.md)

Pressure and humidity as functions of CAL and T_FINE, whichever command wrote T_FINE, and the read port after a reset. -/

namespace Sys2Proof.Machine

/-! ## T_FINE from COMP_T or from SET_TFINE (R154) -/

/-- COMP_P and then COMP_H compute with the same CAL and T_FINE, and read no other register. -/
theorem exec_compP_then_compH {s : State} (hvalid : statusIsSet .calValid s = true) (adcP : BitVec 20) (adcH : BitVec 16) :
    ∃ t t', exec (.compP adcP) s = .next t ∧ exec (.compH adcH) t = .next t' ∧
      t.pOut = (pressureStages s.cal s.tFine adcP).setWidth 32 ∧
      t'.hOut = humidityResult (humidityStages s.cal s.tFine adcH) :=
  ⟨_, _, exec_compP_of_stages hvalid rfl, exec_of_valid_of_cal (calValid_effectOf (i := .compP adcP) hvalid) rfl, rfl, rfl⟩

/-- Settles O44: COMP_T and SET_TFINE leave the same CAL and T_FINE, and COMP_P and COMP_H read nothing else. -/
theorem temperatureMayBeGivenExplicitly : Obligations.TemperatureMayBeGivenExplicitly := by
  intro adcT adcP adcH s hvalid
  let t := effectOf (.compT adcT) s.cal s
  let u := effectOf (.setTfine t.tFine) s.cal s
  have hcal : t.cal = u.cal := rfl
  have htFine : t.tFine = u.tFine := rfl
  obtain ⟨t', t'', htP, htH, htpOut, hthOut⟩ := exec_compP_then_compH (s := t) (calValid_effectOf hvalid) adcP adcH
  obtain ⟨u', u'', huP, huH, hupOut, huhOut⟩ := exec_compP_then_compH (s := u) (calValid_effectOf hvalid) adcP adcH
  refine ⟨t, u, t', u', t'', u'', exec_of_valid hvalid, exec_of_valid hvalid, htP, huP, ?_, htH, huH, ?_⟩
  · rw [htpOut, hupOut, hcal, htFine]
  · rw [hthOut, huhOut, hcal, htFine]

/-! ## The read port after a reset (R40, R142) -/

/-- With every valid bit 0 no output and no coefficient has a value. -/
theorem readPort_of_status_zero {s : State} (hstatus : s.status = 0#32) {index : Byte}
    (h : (0x01 ≤ index.toNat ∧ index.toNat ≤ 0x03) ∨ (0x10 ≤ index.toNat ∧ index.toNat ≤ 0x21)) :
    readPort index s = .error (.unwrittenRead index) := by
  refine readPort_error_iff.mpr ⟨rfl, fieldRead_not_set_iff.mpr ?_⟩
  have hclear (k : Nat) : s.status.getLsbD k = false := by rw [hstatus, BitVec.getLsbD_zero]
  simp only [hclear, and_true]
  omega

/-- Settles O45: the state a reset leaves has STATUS 0. -/
theorem resetLeavesTheResetState : Obligations.ResetLeavesTheResetState := fun _ _ hp =>
  ⟨_, step_of_pending_cons hp, rfl, rfl, rfl, rfl, fun _ => readPort_of_status_zero rfl⟩

end Sys2Proof.Machine
end
